-- ==== Sys2Proof/Word.lean ====
section
/-! DEFINITION. The two bit-vector types of crccore: command words (00_scope.md R8, 30_encoding.md R70) and the
values on the WMAX-bit buses and registers. -/

namespace Sys2Proof

/-- A command word: exactly 32 bits (30_encoding.md R70). -/
abbrev CmdWord := BitVec 32

/-- What a value register or a data bus holds. R8 makes them WMAX bits wide, and R5 lets WMAX be at most 127, so a
value is carried in the low WMAX of 127 bits. That the bits at or above WMAX are 0 is the invariant
`State.WithinWidths` (log entry 2). -/
abbrev Value := BitVec 127

end Sys2Proof
end

