-- ==== Sys2Proof/Config.lean ====
section
/-! DEFINITION. What is fixed when a block is built: the synthesis parameter WMAX (00_scope.md R5). -/

namespace Sys2Proof

/-- The synthesis parameters of one block (00_scope.md R5, 93_implementation_defined.md I1): WMAX, the largest CRC
width, with its range 8 ≤ WMAX ≤ 127. It is carried by the state and no step writes it (log entry 1). -/
structure Config where
  wmax : Nat
  wmax_ge : 8 ≤ wmax
  wmax_le : wmax ≤ 127
  deriving DecidableEq, Repr

/-- The reference configuration, WMAX = 64 (00_scope.md R5). -/
def Config.reference : Config := ⟨64, by decide, by decide⟩

end Sys2Proof
end

