-- ==== Sys2Proof/Syntax.lean ====
section
/-! DEFINITION. The commands of crccore: one constructor per row of spec/opcode_table.json (30_encoding.md R80), with
the fields of the command word (R75). The data operand is no part of the word (R70); a command reads it from the
`cmd_data` port. -/

namespace Sys2Proof

/-- A command with the fields of its word (30_encoding.md R75): `wf` the width field, `rif` and `rof` the two flags,
`idx` the index field. Fields are the unsigned numbers an assembler is given (R76, R88); whether a number fits its
field is `Instr.WellFormed`. -/
inductive Instr where
  | nop
  | cfg (wf : Nat) (rif rof : Bool)
  | setxin
  | setxout
  | rdreg (idx : Nat)
  | bsInit
  | bsByte
  | bsBit
  | bsFinal
  | tdInit
  | tdByte
  | tdFinal
  | tblRd (idx : Nat)
  | refl (wf : Nat)
  | refl8
  deriving DecidableEq, Repr

/-- One transaction on the command port: a command word and its data operand (00_scope.md R16). -/
structure Command where
  word : CmdWord
  data : Value
  deriving DecidableEq, Repr

end Sys2Proof
end

