-- ==== Sys2Proof/WellFormed.lean ====
section
/-! DEFINITION. Which instructions fit their encoding: each field within its bits (30_encoding.md R75), which is what the
assembler refuses otherwise (R88). A width that fits its field but lies outside 1 to WMAX is well-formed: the block
answers it with `BADARG` (R85). -/

namespace Sys2Proof

/-- A width field holds 0 to 127 (7 bits, 30_encoding.md R75). -/
def widthFieldFits (wf : Nat) : Bool := decide (wf < 128)

/-- An index field holds 0 to 255 (8 bits, 30_encoding.md R75). -/
def indexFieldFits (idx : Nat) : Bool := decide (idx < 256)

/-- Every field of the instruction fits the bits the encoding gives it (30_encoding.md R75, R88). -/
def Instr.wellFormed : Instr → Bool
  | .nop => true
  | .cfg wf _ _ => widthFieldFits wf
  | .setxin => true
  | .setxout => true
  | .rdreg idx => indexFieldFits idx
  | .bsInit => true
  | .bsByte => true
  | .bsBit => true
  | .bsFinal => true
  | .tdInit => true
  | .tdByte => true
  | .tdFinal => true
  | .tblRd idx => indexFieldFits idx
  | .refl wf => widthFieldFits wf
  | .refl8 => true

/-- `Instr.wellFormed` as a proposition. -/
abbrev Instr.WellFormed (i : Instr) : Prop := i.wellFormed = true

end Sys2Proof
end

