-- ==== Sys2Proof/Decode.lean ====
section
/-! DEFINITION. Decoding and encoding command words (30_encoding.md R70 to R90). Decoding follows the mask and match
columns of R80 row by row; encoding follows the word column of R88. Every word decodes to one instruction or is
rejected by name (R87). -/

namespace Sys2Proof

/-- The fifteen commands by name, without their fields (30_encoding.md R80). -/
inductive Mnemonic where
  | nop | cfg | setxin | setxout | rdreg
  | bsInit | bsByte | bsBit | bsFinal
  | tdInit | tdByte | tdFinal | tblRd
  | refl | refl8
  deriving DecidableEq, Repr

/-- Why a word is no command: both raise `ILLEGAL` (30_encoding.md R82, R83). -/
inductive DecodeError where
  /-- An `OPC` value that no row of R80 has (R82). -/
  | unassignedOpcode
  /-- An assigned `OPC` with a reserved bit set (R83). -/
  | reservedBits
  deriving DecidableEq, Repr

/-- One row of the opcode map: its fixed bits and where they stand (30_encoding.md R80, R81). -/
structure Row where
  mnemonic : Mnemonic
  pattern : CmdWord
  mask : CmdWord
  deriving DecidableEq, Repr

/-- The mask of format N: no field (30_encoding.md R71, R81). -/
def maskN : CmdWord := 0xFFFFFFFF#32
/-- The mask of format C: WF, RIF and ROF are free (30_encoding.md R72, R81). -/
def maskC : CmdWord := 0xFFFC80FF#32
/-- The mask of format I: IDX is free (30_encoding.md R73, R81). -/
def maskI : CmdWord := 0xFFFF00FF#32
/-- The mask of format R: WF is free (30_encoding.md R74, R81). -/
def maskR : CmdWord := 0xFFFF80FF#32

/-- The opcode map, in the order of 30_encoding.md R80. -/
def opcodeTable : List Row :=
  [⟨.nop, 0x00#32, maskN⟩, ⟨.cfg, 0x01#32, maskC⟩, ⟨.setxin, 0x02#32, maskN⟩, ⟨.setxout, 0x03#32, maskN⟩,
   ⟨.rdreg, 0x04#32, maskI⟩]
  ++ [⟨.bsInit, 0x10#32, maskN⟩, ⟨.bsByte, 0x11#32, maskN⟩, ⟨.bsBit, 0x12#32, maskN⟩, ⟨.bsFinal, 0x13#32, maskN⟩]
  ++ [⟨.tdInit, 0x20#32, maskN⟩, ⟨.tdByte, 0x21#32, maskN⟩, ⟨.tdFinal, 0x22#32, maskN⟩, ⟨.tblRd, 0x23#32, maskI⟩]
  ++ [⟨.refl, 0x30#32, maskR⟩, ⟨.refl8, 0x31#32, maskN⟩]

/-- A word selects a row when its fixed bits are the row's (30_encoding.md R80). -/
def Row.selects (r : Row) (word : CmdWord) : Bool := word &&& r.mask == r.pattern

/-- The opcode field `OPC`, bits 7..0 (30_encoding.md R75). -/
def opcField (word : CmdWord) : Nat := (word.extractLsb' 0 8).toNat
/-- The width field `WF`, bits 14..8 (30_encoding.md R75). -/
def widthField (word : CmdWord) : Nat := (word.extractLsb' 8 7).toNat
/-- The index field `IDX`, bits 15..8 (30_encoding.md R75). -/
def indexField (word : CmdWord) : Nat := (word.extractLsb' 8 8).toNat
/-- The flag field `RIF`, bit 16 (30_encoding.md R75). -/
def rifField (word : CmdWord) : Bool := word.getLsbD 16
/-- The flag field `ROF`, bit 17 (30_encoding.md R75). -/
def rofField (word : CmdWord) : Bool := word.getLsbD 17

/-- The instruction of a selected row, with the fields its format gives it (30_encoding.md R71 to R75). -/
def instrOf (m : Mnemonic) (word : CmdWord) : Instr :=
  match m with
  | .nop => .nop
  | .cfg => .cfg (widthField word) (rifField word) (rofField word)
  | .setxin => .setxin
  | .setxout => .setxout
  | .rdreg => .rdreg (indexField word)
  | .bsInit => .bsInit
  | .bsByte => .bsByte
  | .bsBit => .bsBit
  | .bsFinal => .bsFinal
  | .tdInit => .tdInit
  | .tdByte => .tdByte
  | .tdFinal => .tdFinal
  | .tblRd => .tblRd (indexField word)
  | .refl => .refl (widthField word)
  | .refl8 => .refl8

/-- Why a word that selects no row is illegal (30_encoding.md R82, R83). -/
def decodeError (word : CmdWord) : DecodeError :=
  if opcodeTable.any (fun r => opcField r.pattern == opcField word) then .reservedBits else .unassignedOpcode

/-- Decoding, total on the 2^32 words (30_encoding.md R84, R87). -/
def decode (word : CmdWord) : Except DecodeError Instr :=
  match opcodeTable.find? (fun r => r.selects word) with
  | some r => .ok (instrOf r.mnemonic word)
  | none => .error (decodeError word)

/-- A flag as the number the assembler writes (30_encoding.md R88). -/
def flagBit (b : Bool) : Nat := if b then 1 else 0

/-- The word of an instruction, from the word column of 30_encoding.md R88. -/
def encode : Instr → CmdWord
  | .nop => 0x00#32
  | .cfg wf rif rof => BitVec.ofNat 32 (0x01 + (wf <<< 8) + (flagBit rif <<< 16) + (flagBit rof <<< 17))
  | .setxin => 0x02#32
  | .setxout => 0x03#32
  | .rdreg idx => BitVec.ofNat 32 (0x04 + (idx <<< 8))
  | .bsInit => 0x10#32
  | .bsByte => 0x11#32
  | .bsBit => 0x12#32
  | .bsFinal => 0x13#32
  | .tdInit => 0x20#32
  | .tdByte => 0x21#32
  | .tdFinal => 0x22#32
  | .tblRd idx => BitVec.ofNat 32 (0x23 + (idx <<< 8))
  | .refl wf => BitVec.ofNat 32 (0x30 + (wf <<< 8))
  | .refl8 => 0x31#32

/-- The command word whose low `nbits` bits are those of `w` and whose other bits are 0. A command word travels on 32
parallel wires (20_memory.md R52), so no byte order enters. -/
def tableWord (nbits w : Nat) : CmdWord := BitVec.ofNat 32 (w % 2 ^ nbits)

/-- The instruction the decoder reads from a word numbered as spec/opcode_table.json numbers it; none where the decoder
rejects it, and none for more than the 32 bits a command word has (30_encoding.md R70). -/
def decodeTableWord (nbits w : Nat) : Option Instr :=
  if nbits ≤ 32 then
    match decode (tableWord nbits w) with
    | .ok i => some i
    | .error _ => none
  else none

end Sys2Proof
end

