-- ==== Sys2Proof/Machine/Bits.lean ====
section
/-! DEFINITION. The pure functions on unsigned integers that several units use: the mask, narrowing to a register, the bits
of a byte, reflection, the shift step, and the lookup table (00_scope.md R10, R13). The spec's integers are unbounded
(R10), so these are functions on Nat; a register is narrowed only where it is written. -/

namespace Sys2Proof.Machine

/-- `mask(w) = 2^w - 1` (00_scope.md R10). -/
def mask (w : Nat) : Nat := 2 ^ w - 1

/-- Narrowing an integer to what a value register or bus holds. -/
def toValue (n : Nat) : Value := BitVec.ofNat 127 n

/-- A bit as a number. -/
def bit (b : Bool) : Nat := if b then 1 else 0

/-- `reflect(x, w)`: the low w bits of x in reverse order (41_reflect.md R120), as the loop over k = 0 to w-1. -/
def reflect (x w : Nat) : Nat :=
  (List.range w).foldl (fun r k => if x.testBit k then r ||| (1 <<< (w - 1 - k)) else r) 0

/-- `reflect8(x)`, defined as `reflect(x, 8)` (41_reflect.md R121, 90_conflicts.md C1). -/
def reflect8 (x : Nat) : Nat := reflect x 8

/-- The bits of a byte from bit 7 down to bit 0 (20_memory.md R57, 43_bitserial.md R164). -/
def byteBits (d : Nat) : List Bool := [7, 6, 5, 4, 3, 2, 1, 0].map d.testBit

/-- The shift/XOR/mask step of the bit-serial engine: shift in a bit, reduce by p if bit w comes out set, keep w bits
(43_bitserial.md R161, R162). -/
def shiftIn (p w acc : Nat) (b : Bool) : Nat :=
  let t := (acc <<< 1) ||| bit b
  (if t.testBit w then t ^^^ p else t) &&& mask w

/-- The advance of the table generator's running value (42_table.md R140); the function g of R142. -/
def tableAdvance (p w crc : Nat) : Nat :=
  ((crc <<< 1) ^^^ (if crc.testBit (w - 1) then p else 0)) &&& mask w

/-- One pass of the table construction (42_table.md R140): the running value advances, and entry i+j becomes its XOR
with entry j, for every j below i. The table so far holds exactly its first i entries. -/
def tablePass (p w : Nat) (st : Nat × List Nat) : Nat × List Nat :=
  let crc := tableAdvance p w st.1
  (crc, st.2 ++ st.2.map (fun e => (crc ^^^ e) &&& mask w))

/-- `T(p, w)`, the 256-entry table by doubling: eight passes, i = 1, 2, 4, ..., 128 (42_table.md R140). -/
def crcTable (p w : Nat) : List Nat := ((tablePass p w)^[8] (1 <<< (w - 1), [0])).2

/-- `T(p, w)[idx]` (42_table.md R140). -/
def tableEntry (p w idx : Nat) : Nat := (crcTable p w).getD idx 0

end Sys2Proof.Machine
end

