-- ==== Sys2Proof/Machine/State.lean ====
section
/-! DEFINITION. The state of crccore: its nine architectural registers (10_state.md R20), the handshake of its two
ports (20_memory.md R52 to R55), the parameter WMAX, and what the host drives at the coming clock edges. -/

namespace Sys2Proof.Machine

/-- The status of a response (60_exceptions.md R240). Codes 5, 6 and 7 are never produced, so they have no name here. -/
inductive Status where
  /-- The command completed. -/
  | ok
  /-- The word matches no row of the opcode map (30_encoding.md R84). -/
  | illegal
  /-- A width field outside 1 to WMAX, or a register index above 7 (30_encoding.md R85). -/
  | badArg
  /-- An engine or table command on a block that no `CFG` has configured (30_encoding.md R86). -/
  | noCfg
  /-- A table-engine command at a width below 8 or not a multiple of 8 (30_encoding.md R86). -/
  | badWidth
  deriving DecidableEq, Repr

/-- The answer to a command: `rsp_status` and `rsp_data` (00_scope.md R16, 20_memory.md R52). -/
structure Response where
  status : Status
  data : Value
  deriving DecidableEq, Repr

/-- Where the block stands in its handshake (20_memory.md R53 to R55, 70_reset_and_hazards.md R270, R271). A response is
carried only by the two phases in which it exists, so the model gives `rsp_status` and `rsp_data` no value while
`rsp_valid` is 0 (R55, log entry 7). -/
inductive Phase where
  /-- After an edge with `rst` = 1: `cmd_ready` and `rsp_valid` are 0 (R270). -/
  | inReset
  /-- `cmd_ready` is 1 (R54). -/
  | idle
  /-- A command has been accepted and its response is not offered yet: both outputs are 0 (R54). -/
  | executing (r : Response)
  /-- `rsp_valid` is 1 and the response waits for `rsp_ready` (R55). -/
  | responding (r : Response)
  deriving DecidableEq, Repr

/-- One rising edge of `clk`: the five input ports as the host drives them (20_memory.md R52), and `finish`, which is no
port: the implementation's own choice whether a command that is executing is finished at this edge, since its number of
cycles is free (70_reset_and_hazards.md R280, log entry 5). -/
structure Edge where
  rst : Bool
  cmdValid : Bool
  cmdWord : CmdWord
  cmdData : Value
  rspReady : Bool
  finish : Bool
  deriving DecidableEq, Repr

/-- What an edge makes the handshake do (20_memory.md R53 to R55, 70_reset_and_hazards.md R270, R271). -/
inductive Event where
  /-- `rst` = 1. -/
  | reset
  /-- The first edge with `rst` = 0 after reset. -/
  | leaveReset
  /-- The command on the port is accepted. -/
  | accept
  /-- The executing command is finished and its response is offered. -/
  | offer (r : Response)
  /-- The host takes the response. -/
  | handOver (r : Response)
  /-- Nothing of the handshake moves. -/
  | quiet
  deriving DecidableEq, Repr

/-- The machine state. -/
structure State where
  /-- The synthesis parameter WMAX (00_scope.md R5); no step writes it. -/
  cfg : Config
  /-- `W`, the CRC width; 0 means not configured (10_state.md R21). -/
  w : BitVec 7
  /-- `RI`, reflect input bytes (10_state.md R22). -/
  ri : Bool
  /-- `RO`, reflect the output value (10_state.md R23). -/
  ro : Bool
  /-- `POLY`, the generator polynomial, stored raw (10_state.md R24). -/
  poly : Value
  /-- `XIN`, the XOR-in value, stored raw (10_state.md R25). -/
  xin : Value
  /-- `XOUT`, the XOR-out value, stored raw (10_state.md R26). -/
  xout : Value
  /-- `BS_ACC`, the bit-serial accumulator (10_state.md R27). -/
  bsAcc : Value
  /-- `BS_CNT`, the message bits taken in, saturating at WMAX (10_state.md R28). -/
  bsCnt : BitVec 7
  /-- `TD_ACC`, the table-driven accumulator (10_state.md R29). -/
  tdAcc : Value
  /-- The handshake phase, with the response of the command in flight (20_memory.md R54, R55). -/
  phase : Phase
  /-- The model's own field: the coming clock edges as the host drives them, the next one first; after the last one the
  host drives every input 0 (log entry 4). -/
  inputs : List Edge
  deriving DecidableEq, Repr

/-- Why the machine stops with a fault. There is no such reason: every error of crccore is a status value of the response
(60_exceptions.md R246, 93_implementation_defined.md part 1), so this closed inductive has no constructor. -/
inductive Fault where
  deriving DecidableEq, Repr

/-- Why an instruction has no meaning. -/
inductive Refusal where
  /-- Raised by an arm of `exec` for an instruction that has no meaning yet. Safe: the machine stops. No arm raises it. -/
  | notModelled (mnemonic : String)
  deriving DecidableEq, Repr

/-- The state right after a reset edge on a block of the given parameters (10_state.md R38, 70_reset_and_hazards.md R270),
with no host activity to come. -/
def State.resetOf (c : Config) : State where
  cfg := c
  w := 0
  ri := false
  ro := false
  poly := 0
  xin := 0
  xout := 0
  bsAcc := 0
  bsCnt := 0
  tdAcc := 0
  phase := .inReset
  inputs := []

/-- The machine right after reset, at the reference configuration WMAX = 64 (00_scope.md R5, log entry 1). -/
def State.reset : State := State.resetOf Config.reference

end Sys2Proof.Machine
end

