-- ==== Sys2Proof/Machine/Operands.lean ====
section
/-! DEFINITION. What a command reads: the ports at the current edge, the bits of the data operand (20_memory.md R60), and the
derived values of the configuration registers (10_state.md R40). -/

namespace Sys2Proof.Machine

/-- An edge at which the host drives every input 0. -/
def Edge.quiet : Edge where
  rst := false
  cmdValid := false
  cmdWord := 0
  cmdData := 0
  rspReady := false
  finish := true

/-- The coming clock edge: the first of `inputs`, or a quiet one when none is left (log entry 4). -/
def State.edge (s : State) : Edge := s.inputs.headD Edge.quiet

/-- `WMAX` (00_scope.md R5). -/
def State.wmax (s : State) : Nat := s.cfg.wmax

/-- `W` as a number (10_state.md R21). -/
def State.width (s : State) : Nat := s.w.toNat

/-- The data operand on the WMAX wires of `cmd_data` at the edge that accepts the command (20_memory.md R53); wires at or
above WMAX do not exist (00_scope.md R8). -/
def State.operand (s : State) : Nat := s.edge.cmdData.toNat &&& mask s.wmax

/-- `data[7:0]` (20_memory.md R60). -/
def State.operandByte (s : State) : Nat := s.operand &&& mask 8

/-- `data[0]` (20_memory.md R60). -/
def State.operandBit (s : State) : Bool := s.operand.testBit 0

/-- The input byte as an engine uses it: reflected when RI = 1 (10_state.md R22, 41_reflect.md R125). -/
def State.inputByte (s : State) : Nat := if s.ri then reflect8 s.operandByte else s.operandByte

/-- `Wm = mask(S.W)` (10_state.md R40). -/
def State.widthMask (s : State) : Nat := mask s.width

/-- `P = S.POLY & Wm` (10_state.md R40). -/
def State.maskedPoly (s : State) : Nat := s.poly.toNat &&& s.widthMask

/-- `XI = S.XIN & Wm` (10_state.md R40). -/
def State.maskedXin (s : State) : Nat := s.xin.toNat &&& s.widthMask

/-- `XO = S.XOUT & Wm` (10_state.md R40). -/
def State.maskedXout (s : State) : Nat := s.xout.toNat &&& s.widthMask

/-- The configuration image of `RDREG` index 0: W at bits 14..8, RI at bit 16, RO at bit 17, 0 elsewhere (10_state.md R36),
on the WMAX wires of the response bus (R35, 20_memory.md R59, log entry 3). -/
def State.configImage (s : State) : Nat :=
  ((s.width <<< 8) ||| (bit s.ri <<< 16) ||| (bit s.ro <<< 17)) &&& mask s.wmax

/-- The register index map of `RDREG`, none where no register has the index (10_state.md R35). -/
def State.readRegister (s : State) (idx : Nat) : Option Nat :=
  match idx with
  | 0 => some s.configImage
  | 1 => some s.poly.toNat
  | 2 => some s.xin.toNat
  | 3 => some s.xout.toNat
  | 4 => some s.bsAcc.toNat
  | 5 => some s.bsCnt.toNat
  | 6 => some s.tdAcc.toNat
  | 7 => some s.wmax
  | _ => none

end Sys2Proof.Machine
end

