-- ==== Sys2Proof/Machine/Flags.lean ====
section
/-! DEFINITION. The block has no flags (10_state.md R31). In their place stand the status of each response (60_exceptions.md
R240) and the checks that decide it before a command's own rule runs (30_encoding.md R84 to R86). -/

namespace Sys2Proof.Machine

/-- The 3-bit `rsp_status` code (60_exceptions.md R240). -/
def Status.code : Status → BitVec 3
  | .ok => 0
  | .illegal => 1
  | .badArg => 2
  | .noCfg => 3
  | .badWidth => 4

/-- A width field is legal when it lies in 1 to WMAX (30_encoding.md R85). -/
def State.legalWidthField (s : State) (wf : Nat) : Bool := decide (1 ≤ wf) && decide (wf ≤ s.wmax)

/-- A register index of `RDREG` is legal up to 7 (30_encoding.md R85). -/
def legalRegisterIndex (idx : Nat) : Bool := decide (idx ≤ 7)

/-- The block is configured when W is not 0 (30_encoding.md R86, 00_scope.md R16). -/
def State.configured (s : State) : Bool := s.width != 0

/-- The table-driven engine takes W when it is at least 8 and a multiple of 8 (30_encoding.md R86, 00_scope.md R7). -/
def State.tableWidth (s : State) : Bool := decide (8 ≤ s.width) && s.width % 8 == 0

end Sys2Proof.Machine
end

