-- ==== Sys2Proof/Machine/Ops.lean ====
section
/-! DEFINITION. The operations the meanings share: answering a command, raising an error, the checks in front of a command,
the output transform of both engines, and what each handshake event does to the state. -/

namespace Sys2Proof.Machine

/-- The outcome of one step or meaning. -/
abbrev Result := Host.Outcome State Fault Refusal

/-- `respond(status, rdata)` (00_scope.md R12): the command is done with, and its response is on its way to the port. -/
def respond (status : Status) (rdata : Nat) (s : State) : Result :=
  .next { s with phase := .executing ⟨status, toValue rdata⟩ }

/-- `raise <Error>` (00_scope.md R12, 60_exceptions.md R241): the code and data 0, with no register written. It is the one
thing that stands where other machines take an exception: the block has no traps, so nothing is saved, no mode changes and
nothing returns (60_exceptions.md R247, R248). -/
def raise (e : Status) (s : State) : Result := respond e 0 s

/-- Check 2 of `CFG` and `REFL` (30_encoding.md R85). -/
def checkWidthField (wf : Nat) (s : State) (run : Result) : Result :=
  if s.legalWidthField wf then run else raise .badArg s

/-- Check 2 of `RDREG` (30_encoding.md R85). -/
def checkRegisterIndex (idx : Nat) (s : State) (run : Result) : Result :=
  if legalRegisterIndex idx then run else raise .badArg s

/-- Check 3 of the engine and table commands (30_encoding.md R86). -/
def checkConfigured (s : State) (run : Result) : Result :=
  if s.configured then run else raise .noCfg s

/-- Checks 3 and 4 of the table-driven engine, in this order (30_encoding.md R86, 60_exceptions.md R243). -/
def checkTableEngine (s : State) (run : Result) : Result :=
  checkConfigured s (if s.tableWidth then run else raise .badWidth s)

/-- `finalize(r, S)`: output reflection, then XOR-out (43_bitserial.md R163). -/
def finalize (r : Nat) (s : State) : Nat :=
  (if s.ro then reflect r s.width else r) ^^^ s.maskedXout

/-- The answer to a word that selects no row (30_encoding.md R84). -/
def execIllegal (s : State) : Result := raise .illegal s

/-- What the coming edge makes the handshake do (20_memory.md R53 to R55, 70_reset_and_hazards.md R270, R271). Reset goes
before everything else (R270, R272). -/
def State.event (s : State) : Event :=
  if s.edge.rst then .reset
  else
    match s.phase with
    | .inReset => .leaveReset
    | .idle => if s.edge.cmdValid then .accept else .quiet
    | .executing r => if s.edge.finish then .offer r else .quiet
    | .responding r => if s.edge.rspReady then .handOver r else .quiet

/-- `cmd_ready` (20_memory.md R54). -/
def State.cmdReady (s : State) : Bool := s.phase == .idle

/-- The response on the port; none means `rsp_valid` = 0 (20_memory.md R55). -/
def State.rsp (s : State) : Option Response :=
  match s.phase with
  | .responding r => some r
  | _ => none

/-- The edge is over: the next one of `inputs` comes. -/
def State.advance (s : State) : State := { s with inputs := s.inputs.tail }

/-- An edge with `rst` = 1: every architectural register takes its reset value, and a command in flight is cancelled
(70_reset_and_hazards.md R270, R272). -/
def State.resetEdge (s : State) : State := { State.resetOf s.cfg with inputs := s.inputs }

/-- The block becomes idle (20_memory.md R55, 70_reset_and_hazards.md R271). -/
def State.becomeIdle (s : State) : State := { s with phase := .idle }

/-- The response of the finished command is offered (20_memory.md R55). -/
def State.offerResponse (r : Response) (s : State) : State := { s with phase := .responding r }

/-- The outcome of an edge: the next state with the edge behind it. -/
def afterEdge : Result → Result
  | .next t => .next t.advance
  | .fault f => .fault f
  | .refused r => .refused r

end Sys2Proof.Machine
end

