-- ==== Sys2Proof/Machine/BitSerial.lean ====
section
/-! DEFINITION. The bit-serial engine (43_bitserial.md): BS_INIT, BS_BYTE, BS_BIT, BS_FINAL and their shared steps. -/

namespace Sys2Proof.Machine

/-- `bs_step(S, b)` (43_bitserial.md R161): shift in the bit, reduce, mask, and XOR in XI at the step that consumes message
bit number W; the counter stops at WMAX. -/
def bsStep (s : State) (b : Bool) : State :=
  let t := shiftIn s.maskedPoly s.width s.bsAcc.toNat b
  let n := s.bsCnt.toNat + 1
  { s with
    bsAcc := toValue (if n = s.width then t ^^^ s.maskedXin else t)
    bsCnt := BitVec.ofNat 7 (min n s.wmax) }

/-- Message bits taken in one after the other, each step on the state the one before it left (43_bitserial.md R164). -/
def bsFeed (s : State) (bits : List Bool) : State := bits.foldl bsStep s

/-- `flush(S)` (43_bitserial.md R162): W steps with bit 0 and no XOR-in, on a copy of BS_ACC. -/
def flush (s : State) : Nat :=
  (fun r => shiftIn s.maskedPoly s.width r false)^[s.width] s.bsAcc.toNat

/-- `BS_INIT` (43_bitserial.md R160). -/
def execBsInit (s : State) : Result :=
  checkConfigured s <| respond .ok 0 { s with bsAcc := 0, bsCnt := 0 }

/-- `BS_BYTE` (43_bitserial.md R164). -/
def execBsByte (s : State) : Result :=
  checkConfigured s <| respond .ok 0 (bsFeed s (byteBits s.inputByte))

/-- `BS_BIT` (43_bitserial.md R165): no reflection. -/
def execBsBit (s : State) : Result :=
  checkConfigured s <| respond .ok 0 (bsStep s s.operandBit)

/-- `BS_FINAL` (43_bitserial.md R166): nothing is written. -/
def execBsFinal (s : State) : Result :=
  checkConfigured s <| respond .ok (finalize (flush s) s) s

end Sys2Proof.Machine
end

