-- ==== Sys2Proof/Machine/Configuration.lean ====
section
/-! DEFINITION. The configuration and read-back commands (40_config.md): NOP, CFG, SETXIN, SETXOUT, RDREG. -/

namespace Sys2Proof.Machine

/-- `NOP` (40_config.md R100). -/
def execNop (s : State) : Result := respond .ok 0 s

/-- `CFG` (40_config.md R101): W, RI and RO from the word, POLY from the operand, stored unmasked. -/
def execCfg (wf : Nat) (rif rof : Bool) (s : State) : Result :=
  checkWidthField wf s <|
    respond .ok 0 { s with w := BitVec.ofNat 7 wf, ri := rif, ro := rof, poly := toValue s.operand }

/-- `SETXIN` (40_config.md R102). -/
def execSetxin (s : State) : Result := respond .ok 0 { s with xin := toValue s.operand }

/-- `SETXOUT` (40_config.md R103). -/
def execSetxout (s : State) : Result := respond .ok 0 { s with xout := toValue s.operand }

/-- `RDREG` (40_config.md R104). -/
def execRdreg (idx : Nat) (s : State) : Result :=
  checkRegisterIndex idx s <|
    match s.readRegister idx with
    | some v => respond .ok v s
    | none => raise .badArg s

end Sys2Proof.Machine
end

