-- ==== Sys2Proof/Machine/Reflection.lean ====
section
/-! DEFINITION. The commands of the bit-reflection unit (41_reflect.md): REFL and REFL8. -/

namespace Sys2Proof.Machine

/-- `REFL` (41_reflect.md R122): it needs no configuration and does not use W. -/
def execRefl (wf : Nat) (s : State) : Result :=
  checkWidthField wf s <| respond .ok (reflect s.operand wf) s

/-- `REFL8` (41_reflect.md R123). -/
def execRefl8 (s : State) : Result := respond .ok (reflect8 s.operandByte) s

end Sys2Proof.Machine
end

