-- ==== Sys2Proof/Machine/TableDriven.lean ====
section
/-! DEFINITION. The table generator's read command (42_table.md) and the table-driven engine (44_tabledriven.md): TBL_RD,
TD_INIT, TD_BYTE, TD_FINAL. The lookup-table cache is not architectural (10_state.md R30), so every use reads the
function `T` of the current POLY and W. -/

namespace Sys2Proof.Machine

/-- `TBL_RD` (42_table.md R141). -/
def execTblRd (idx : Nat) (s : State) : Result :=
  checkConfigured s <| respond .ok (tableEntry s.maskedPoly s.width idx) s

/-- `td_step(S, d)` (44_tabledriven.md R191). -/
def tdStep (s : State) (d : Nat) : State :=
  let acc := s.tdAcc.toNat
  let idx := ((acc >>> (s.width - 8)) ^^^ d) &&& 0xFF
  { s with tdAcc := toValue (((acc <<< 8) ^^^ tableEntry s.maskedPoly s.width idx) &&& s.widthMask) }

/-- `TD_INIT` (44_tabledriven.md R190). -/
def execTdInit (s : State) : Result :=
  checkTableEngine s <| respond .ok 0 { s with tdAcc := toValue s.maskedXin }

/-- `TD_BYTE` (44_tabledriven.md R192). -/
def execTdByte (s : State) : Result :=
  checkTableEngine s <| respond .ok 0 (tdStep s s.inputByte)

/-- `TD_FINAL` (44_tabledriven.md R193): nothing is written. -/
def execTdFinal (s : State) : Result :=
  checkTableEngine s <| respond .ok (finalize (s.tdAcc.toNat &&& s.widthMask) s) s

end Sys2Proof.Machine
end

