-- ==== Sys2Proof/Machine/Dispatch.lean ====
section
/-! DEFINITION. One arm per command of spec/opcode_table.json: its meaning. -/

namespace Sys2Proof.Machine

def exec (i : Instr) (s : State) : Host.Outcome State Fault Refusal :=
  match i with
  | .nop => Sys2Proof.Machine.execNop s
  | .cfg wf rif rof => Sys2Proof.Machine.execCfg wf rif rof s
  | .setxin => Sys2Proof.Machine.execSetxin s
  | .setxout => Sys2Proof.Machine.execSetxout s
  | .rdreg idx => Sys2Proof.Machine.execRdreg idx s
  | .bsInit => Sys2Proof.Machine.execBsInit s
  | .bsByte => Sys2Proof.Machine.execBsByte s
  | .bsBit => Sys2Proof.Machine.execBsBit s
  | .bsFinal => Sys2Proof.Machine.execBsFinal s
  | .tdInit => Sys2Proof.Machine.execTdInit s
  | .tdByte => Sys2Proof.Machine.execTdByte s
  | .tdFinal => Sys2Proof.Machine.execTdFinal s
  | .tblRd idx => Sys2Proof.Machine.execTblRd idx s
  | .refl wf => Sys2Proof.Machine.execRefl wf s
  | .refl8 => Sys2Proof.Machine.execRefl8 s

end Sys2Proof.Machine
end

