-- ==== Sys2Proof/Machine/Step.lean ====
section
/-! DEFINITION. One step is one rising edge of `clk` (20_memory.md R52, R53). At the edge that accepts a command the step
decodes the word on the port and runs it whole, as one atomic command (20_memory.md R56, R62, 00_scope.md R14). -/

namespace Sys2Proof.Machine

/-- An accepted command: check 1, then the command's own checks and rule (30_encoding.md R84). -/
def acceptCommand (s : State) : Host.Outcome State Fault Refusal :=
  match decode s.edge.cmdWord with
  | .ok i => exec i s
  | .error _ => execIllegal s

/-- One rising edge. -/
def step (s : State) : Host.Outcome State Fault Refusal :=
  afterEdge <|
    match s.event with
    | .reset => .next s.resetEdge
    | .leaveReset => .next s.becomeIdle
    | .accept => acceptCommand s
    | .offer r => .next (s.offerResponse r)
    | .handOver _ => .next s.becomeIdle
    | .quiet => .next s

/-- The state with the block idle and the word offered on the command port at the coming edge, with the data operand that
edge already drives. It stands for the host's push of a command: the block fetches nothing (20_memory.md R68, log
entry 8). -/
def State.withFetchWord (s : State) (nbits w : Nat) : State :=
  { s with
    phase := .idle
    inputs := { s.edge with rst := false, cmdValid := true, cmdWord := tableWord nbits w } :: s.inputs.tail }

end Sys2Proof.Machine
end

