-- ==== Sys2Proof/Machine/HostSide.lean ====
section
/-! DEFINITION. What the spec settles about the software that drives the block (48_host_side.md) and about the assembler
(30_encoding.md R88, R89): pure functions that build commands or read tables. None of them is a step of the block
(00_scope.md R4). The last part holds the source's two calls as pure functions of a whole message, which the command
sequences of 43_bitserial.md R169 and 44_tabledriven.md R194 compute. -/

namespace Sys2Proof.Machine

/-- The number of bits up to the highest set bit (48_host_side.md R220). -/
def bitLength (k : Nat) : Nat := if k = 0 then 0 else Nat.log2 k + 1

/-- `koopman(k)` for k ≥ 1: the width and the polynomial (48_host_side.md R220). -/
def koopman (k : Nat) : Nat × Nat := (bitLength k, ((k <<< 1) ||| 1) ^^^ (1 <<< bitLength k))

/-- The host's use of `koopman`: k = 0 and widths above WMAX are refused (48_host_side.md R221). -/
def hostKoopman (c : Config) (k : Nat) : Option (Nat × Nat) :=
  if k = 0 ∨ c.wmax < (koopman k).1 then none else some (koopman k)

/-- The container of the LUT emitter for a width, none above 64 (48_host_side.md R222). -/
def lutContainerBits (w : Nat) : Option Nat :=
  if w ≤ 8 then some 8 else if w ≤ 16 then some 16 else if w ≤ 32 then some 32 else if w ≤ 64 then some 64 else none

/-- The number of hexadecimal digits of one table literal, `ceil(width/4)` (48_host_side.md R222). -/
def lutHexDigits (w : Nat) : Nat := (w + 3) / 4

/-- The 256 entries as the emitter wraps them, 8 to a line (48_host_side.md R222). -/
def lutLines (p w : Nat) : List (List Nat) :=
  (List.range 32).map fun line => (List.range 8).map fun col => tableEntry (p &&& mask w) w (8 * line + col)

/-- Whether the host may choose the table-driven engine for a width (48_host_side.md R223). -/
def hostMayUseTableEngine (w : Nat) : Bool := decide (8 ≤ w) && w % 8 == 0

/-- Whether the assembler gives the command a data operand; otherwise it drives 0 (30_encoding.md R88). -/
def takesData : Instr → Bool
  | .cfg _ _ _ => true
  | .setxin => true
  | .setxout => true
  | .bsByte => true
  | .bsBit => true
  | .tdByte => true
  | .refl _ => true
  | .refl8 => true
  | .nop => false
  | .rdreg _ => false
  | .bsInit => false
  | .bsFinal => false
  | .tdInit => false
  | .tdFinal => false
  | .tblRd _ => false

/-- The command of an instruction and a data operand. -/
def commandOf (i : Instr) (data : Nat) : Command :=
  ⟨encode i, toValue (if takesData i then data else 0)⟩

/-- The assembler: it refuses a field value that does not fit its field and a data value that does not fit the WMAX bits of `cmd_data`
(30_encoding.md R88). R88's words "a data value of WMAX bits or more" are read as a value that needs more than WMAX bits, so a value of
exactly WMAX bits is accepted (DEDUCED, log entry 19). -/
def assemble (c : Config) (i : Instr) (data : Nat) : Option Command :=
  if i.wellFormed ∧ data < 2 ^ c.wmax then some (commandOf i data) else none

/-- `bs.bytes` and `td.bytes`: one command a byte, in order (30_encoding.md R89). -/
def assembleBytes (c : Config) (byteCommand : Instr) (bytes : List Nat) : Option (List Command) :=
  bytes.mapM (assemble c byteCommand)

/-- The bytes of the text of `bs.str` and `td.str`: printable ASCII other than the double quote and the backslash
(30_encoding.md R89). -/
def textBytes (text : String) : Option (List Nat) :=
  text.toList.mapM fun ch =>
    if 0x20 ≤ ch.toNat ∧ ch.toNat ≤ 0x7E ∧ ch.toNat ≠ 0x22 ∧ ch.toNat ≠ 0x5C then some ch.toNat else none

/-- `bs.str` and `td.str` (30_encoding.md R89). -/
def assembleText (c : Config) (byteCommand : Instr) (text : String) : Option (List Command) :=
  (textBytes text).bind (assembleBytes c byteCommand)

/-- `cfg.koop k, ri, ro` (30_encoding.md R89). -/
def assembleCfgKoop (c : Config) (k : Nat) (ri ro : Bool) : Option Command :=
  (hostKoopman c k).bind fun wp => assemble c (.cfg wp.1 ri ro) wp.2

/-- `td.resume v`: `setxin v` then `td.init` (30_encoding.md R89, 44_tabledriven.md R195). -/
def assembleTdResume (c : Config) (v : Nat) : Option (List Command) :=
  (assemble c .setxin v).map fun setxin => [setxin, commandOf .tdInit 0]

/-- The source's CRC parameters (40_config.md, head of the file). -/
structure CrcParams where
  poly : Nat
  width : Nat
  xorIn : Nat
  xorOut : Nat
  reflectIn : Bool
  reflectOut : Bool
  deriving DecidableEq, Repr

/-- The three configuration commands that start both call sequences (43_bitserial.md R169, 44_tabledriven.md R194). -/
def configCommands (p : CrcParams) : List Command :=
  [commandOf (.cfg p.width p.reflectIn p.reflectOut) p.poly, commandOf .setxin p.xorIn, commandOf .setxout p.xorOut]

/-- One bit-serial message: `bs.init`, the bytes, `bs.final`. -/
def bsMessage (bytes : List Nat) : List Command :=
  commandOf .bsInit 0 :: bytes.map (commandOf .bsByte) ++ [commandOf .bsFinal 0]

/-- One table-driven message: `td.init`, the bytes, `td.final`. -/
def tdMessage (bytes : List Nat) : List Command :=
  commandOf .tdInit 0 :: bytes.map (commandOf .tdByte) ++ [commandOf .tdFinal 0]

/-- The command sequence of 43_bitserial.md R169. -/
def bsCall (p : CrcParams) (bytes : List Nat) : List Command := configCommands p ++ bsMessage bytes

/-- The command sequence of 44_tabledriven.md R194. -/
def tdCall (p : CrcParams) (bytes : List Nat) : List Command := configCommands p ++ tdMessage bytes

/-- The bits of a message in the order the bit-serial engine takes them (20_memory.md R57, R58). -/
def messageBits (reflectIn : Bool) (bytes : List Nat) : List Bool :=
  bytes.flatMap fun d => byteBits (if reflectIn then reflect8 d else d)

/-- The source's output transform (43_bitserial.md R163). -/
def crcOutput (p : CrcParams) (r : Nat) : Nat :=
  (if p.reflectOut then reflect r p.width else r) ^^^ (p.xorOut &&& mask p.width)

/-- The source's `crc_bitwise`: XOR-in exactly once, after the first `width` bits, and never into a shorter input; then
`width` zero bits of augmentation; then the output transform (43_bitserial.md R161 to R163, quotations). -/
def crcBitwise (p : CrcParams) (bytes : List Nat) : Nat :=
  let feed := List.foldl (shiftIn (p.poly &&& mask p.width) p.width)
  let bits := messageBits p.reflectIn bytes
  let acc :=
    if p.width ≤ bits.length then
      feed (feed 0 (bits.take p.width) ^^^ (p.xorIn &&& mask p.width)) (bits.drop p.width)
    else feed 0 bits
  crcOutput p (feed acc (List.replicate p.width false))

/-- The source's `crc_table`: the accumulator starts at `xor_in`, one table step a byte, then the output transform
(44_tabledriven.md R191, R193, quotations). -/
def crcTableDriven (p : CrcParams) (bytes : List Nat) : Nat :=
  let m := mask p.width
  let byteStep := fun (crc d : Nat) =>
    let b := if p.reflectIn then reflect8 d else d
    ((crc <<< 8) ^^^ tableEntry (p.poly &&& m) p.width (((crc >>> (p.width - 8)) ^^^ b) &&& 0xFF)) &&& m
  crcOutput p (bytes.foldl byteStep (p.xorIn &&& m))

end Sys2Proof.Machine
end

