-- ==== Sys2Proof/Safety.lean ====
section
/-! DEFINITION. What the claims about the block are stated with: the width invariant, which registers two states share, when
a word is accepted, the classes of commands the checks name, the transaction-level step of 00_scope.md R14, and runs over
clock edges. -/

namespace Sys2Proof.Machine

/-- The response of the command in flight, if there is one. -/
def State.inFlight (s : State) : Option Response :=
  match s.phase with
  | .executing r => some r
  | .responding r => some r
  | .inReset => none
  | .idle => none

/-- Every register and the response in flight keep to the widths the spec gives them: W at most WMAX (10_state.md R21),
the WMAX-bit registers below 2^WMAX (R20, 00_scope.md R8), BS_CNT at most WMAX (R28). -/
abbrev State.WithinWidths (s : State) : Prop :=
  s.width ≤ s.wmax ∧ s.poly.toNat < 2 ^ s.wmax ∧ s.xin.toNat < 2 ^ s.wmax ∧ s.xout.toNat < 2 ^ s.wmax ∧
  s.bsAcc.toNat < 2 ^ s.wmax ∧ s.bsCnt.toNat ≤ s.wmax ∧ s.tdAcc.toNat < 2 ^ s.wmax ∧
  ∀ r ∈ s.inFlight, r.data.toNat < 2 ^ s.wmax

/-- The two states agree on the nine architectural registers and on WMAX (10_state.md R20). -/
abbrev SameRegisters (s t : State) : Prop :=
  t.cfg = s.cfg ∧ t.w = s.w ∧ t.ri = s.ri ∧ t.ro = s.ro ∧ t.poly = s.poly ∧ t.xin = s.xin ∧ t.xout = s.xout ∧
  t.bsAcc = s.bsAcc ∧ t.bsCnt = s.bsCnt ∧ t.tdAcc = s.tdAcc

/-- The coming edge accepts the word (20_memory.md R53). -/
abbrev Accepts (s : State) (word : CmdWord) : Prop :=
  s.edge.rst = false ∧ s.edge.cmdValid = true ∧ s.phase = .idle ∧ s.edge.cmdWord = word

/-- The state after the edge that accepts a command which raises the error: nothing but the answer (60_exceptions.md R241). -/
def State.answered (s : State) (status : Status) (data : Value) : State :=
  { s with phase := .executing ⟨status, data⟩, inputs := s.inputs.tail }

/-- The words of one row of 30_encoding.md R80: those that select it decode to the row's instruction with the fields given;
an accepted word with the row's opcode and any other bit of the mask wrong is answered `ILLEGAL`, data 0, and writes no
register (R83). -/
def EncodedAs (pattern mask : CmdWord) (fields : CmdWord → Instr) : Prop :=
  (∀ word : CmdWord, word &&& mask = pattern → decode word = .ok (fields word)) ∧
  ∀ (s : State) (word : CmdWord), Accepts s word → word &&& 0xFF#32 = pattern &&& 0xFF#32 → word &&& mask ≠ pattern →
    step s = .next (s.answered .illegal 0)

/-- The argument that check 2 rejects (30_encoding.md R85). -/
def ArgumentBad (s : State) : Instr → Prop
  | .cfg wf _ _ => ¬(1 ≤ wf ∧ wf ≤ s.wmax)
  | .refl wf => ¬(1 ≤ wf ∧ wf ≤ s.wmax)
  | .rdreg idx => 7 < idx
  | .nop => False
  | .setxin => False
  | .setxout => False
  | .bsInit => False
  | .bsByte => False
  | .bsBit => False
  | .bsFinal => False
  | .tdInit => False
  | .tdByte => False
  | .tdFinal => False
  | .tblRd _ => False
  | .refl8 => False

/-- The commands of check 4, the table-driven engine (30_encoding.md R86). -/
def needsTableWidth : Instr → Bool
  | .tdInit => true
  | .tdByte => true
  | .tdFinal => true
  | .nop => false
  | .cfg _ _ _ => false
  | .setxin => false
  | .setxout => false
  | .rdreg _ => false
  | .bsInit => false
  | .bsByte => false
  | .bsBit => false
  | .bsFinal => false
  | .tblRd _ => false
  | .refl _ => false
  | .refl8 => false

/-- The commands of check 3, the engine and table commands (30_encoding.md R86). -/
def needsConfiguration : Instr → Bool
  | .bsInit => true
  | .bsByte => true
  | .bsBit => true
  | .bsFinal => true
  | .tdInit => true
  | .tdByte => true
  | .tdFinal => true
  | .tblRd _ => true
  | .nop => false
  | .cfg _ _ _ => false
  | .setxin => false
  | .setxout => false
  | .rdreg _ => false
  | .refl _ => false
  | .refl8 => false

/-- The nine architectural registers by name (10_state.md R20). -/
inductive Reg where
  | w | ri | ro | poly | xin | xout | bsAcc | bsCnt | tdAcc
  deriving DecidableEq, Repr

/-- The content of a register as an unsigned number (00_scope.md R9). -/
def State.reg (s : State) : Reg → Nat
  | .w => s.width
  | .ri => bit s.ri
  | .ro => bit s.ro
  | .poly => s.poly.toNat
  | .xin => s.xin.toNat
  | .xout => s.xout.toNat
  | .bsAcc => s.bsAcc.toNat
  | .bsCnt => s.bsCnt.toNat
  | .tdAcc => s.tdAcc.toNat

/-- The "w" entries of a command's column (10_state.md R34). -/
def registersWritten : Instr → List Reg
  | .nop => []
  | .cfg _ _ _ => [.w, .ri, .ro, .poly]
  | .setxin => [.xin]
  | .setxout => [.xout]
  | .rdreg _ => []
  | .bsInit => [.bsAcc, .bsCnt]
  | .bsByte => [.bsAcc, .bsCnt]
  | .bsBit => [.bsAcc, .bsCnt]
  | .bsFinal => []
  | .tdInit => [.tdAcc]
  | .tdByte => [.tdAcc]
  | .tdFinal => []
  | .tblRd _ => []
  | .refl _ => []
  | .refl8 => []

/-- The "r" entries of a command's column (10_state.md R34). -/
def registersRead : Instr → List Reg
  | .nop => []
  | .cfg _ _ _ => []
  | .setxin => []
  | .setxout => []
  | .rdreg _ => [.w, .ri, .ro, .poly, .xin, .xout, .bsAcc, .bsCnt, .tdAcc]
  | .bsInit => [.w]
  | .bsByte => [.w, .ri, .poly, .xin, .bsAcc, .bsCnt]
  | .bsBit => [.w, .poly, .xin, .bsAcc, .bsCnt]
  | .bsFinal => [.w, .ro, .poly, .xout, .bsAcc]
  | .tdInit => [.w, .xin]
  | .tdByte => [.w, .ri, .poly, .tdAcc]
  | .tdFinal => [.w, .ro, .xout, .tdAcc]
  | .tblRd _ => [.w, .poly]
  | .refl _ => []
  | .refl8 => []

/-- The bits of the data operand a command reads, as a mask (20_memory.md R60). -/
def operandBitsRead (s : State) : Instr → Nat
  | .cfg _ _ _ => mask s.wmax
  | .setxin => mask s.wmax
  | .setxout => mask s.wmax
  | .bsByte => mask 8
  | .tdByte => mask 8
  | .refl8 => mask 8
  | .bsBit => mask 1
  | .refl wf => mask wf
  | .nop => 0
  | .rdreg _ => 0
  | .bsInit => 0
  | .bsFinal => 0
  | .tdInit => 0
  | .tdFinal => 0
  | .tblRd _ => 0

/-- The state whose coming edge drives the value on `cmd_data`. -/
def State.driving (s : State) (data : Value) : State :=
  { s with inputs := { s.edge with cmdData := data } :: s.inputs.tail }

/-- The number whose binary digits are the bits, first bit highest (43_bitserial.md R167). -/
def bitsValue (bits : List Bool) : Nat := bits.foldl (fun v b => 2 * v + bit b) 0

/-- x is a multiple of g in the polynomials over GF(2): an XOR of shifted copies of g (00_scope.md R15). -/
def IsPolyMultiple (g x : Nat) : Prop := ∃ shifts : List Nat, x = shifts.foldl (fun v k => v ^^^ (g <<< k)) 0

/-- The edge at which the host offers a command. -/
def Edge.offering (c : Command) : Edge :=
  { Edge.quiet with cmdValid := true, cmdWord := c.word, cmdData := c.data }

/-- The edge at which the host takes a response. -/
def Edge.taking : Edge := { Edge.quiet with rspReady := true }

/-- `Step(S, word, data) = (S', status, rdata)` of 00_scope.md R14: the command is offered to the idle block, and its
effect and its response are read off; none where the step gives no answer. -/
def transact (s : State) (c : Command) : Option (State × Response) :=
  match step { s with phase := .idle, inputs := [Edge.offering c] } with
  | .next t => t.inFlight.map fun r => ({ t with phase := .idle }, r)
  | .fault _ => none
  | .refused _ => none

/-- A command sequence, each command on the state the one before it left, with all responses in order (20_memory.md R66). -/
def transactAll : State → List Command → Option (State × List Response)
  | s, [] => some (s, [])
  | s, c :: cs =>
    match transact s c with
    | none => none
    | some (t, r) =>
      match transactAll t cs with
      | none => none
      | some (u, rs) => some (u, r :: rs)

/-- The last response of a command sequence (43_bitserial.md R169, 44_tabledriven.md R194). -/
def lastResponse (s : State) (cs : List Command) : Option Response :=
  (transactAll s cs).bind fun p => p.2.getLast?

/-- The state with the one coming edge. -/
def State.atEdge (s : State) (e : Edge) : State := { s with inputs := [e] }

/-- The state after the edges, one step each; none where a step gives no next state. -/
def afterEdges : State → List Edge → Option State
  | s, [] => some s
  | s, e :: es =>
    match step (s.atEdge e) with
    | .next t => afterEdges t es
    | .fault _ => none
    | .refused _ => none

/-- The commands the block accepts over the edges, in order (20_memory.md R53). -/
def acceptedOver : State → List Edge → List Command
  | _, [] => []
  | s, e :: es =>
    match step (s.atEdge e) with
    | .next t =>
      match (s.atEdge e).event with
      | .accept => ⟨e.cmdWord, e.cmdData⟩ :: acceptedOver t es
      | _ => acceptedOver t es
    | .fault _ => []
    | .refused _ => []

/-- The responses the host takes over the edges, in order (20_memory.md R55). -/
def takenOver : State → List Edge → List Response
  | _, [] => []
  | s, e :: es =>
    match step (s.atEdge e) with
    | .next t =>
      match (s.atEdge e).event with
      | .handOver r => r :: takenOver t es
      | _ => takenOver t es
    | .fault _ => []
    | .refused _ => []

end Sys2Proof.Machine
end

