-- ==== Sys2Proof/Certificates/Slice0/Obligations.lean ====
section
/-! DEFINITION. What is claimed about the block, for the provers. Each docstring names the rule or the section of spec/ that the
statement formalises. Rules the spec marks as its own inference ("derived") are cited by section. -/

open Sys2Proof Sys2Proof.Machine

/-! ## The commands, one by one -/

/-- 40_config.md R100. -/
def Obligations.NopAnswersOkAndWritesNothing : Prop :=
  EncodedAs 0x00#32 0xFFFFFFFF#32 (fun _ => .nop) ∧
  ∀ s : State, exec .nop s = .next { s with phase := .executing ⟨.ok, 0⟩ }

/-- 40_config.md R101 and 30_encoding.md R72, R85: the fields of the word, the four registers written (POLY unmasked), and the
widths that are answered `BADARG` with nothing written. -/
def Obligations.CfgWritesWidthFlagsAndRawPolynomial : Prop :=
  EncodedAs 0x01#32 0xFFFC80FF#32
    (fun word => .cfg (word.toNat / 2 ^ 8 % 2 ^ 7) (word.toNat.testBit 16) (word.toNat.testBit 17)) ∧
  ∀ (s : State) (wf : Nat) (rif rof : Bool),
    (1 ≤ wf → wf ≤ s.wmax →
      exec (.cfg wf rif rof) s =
        .next { s with w := BitVec.ofNat 7 wf, ri := rif, ro := rof, poly := toValue s.operand,
                       phase := .executing ⟨.ok, 0⟩ }) ∧
    (wf = 0 ∨ s.wmax < wf →
      exec (.cfg wf rif rof) s = .next { s with phase := .executing ⟨.badArg, 0⟩ })

/-- 40_config.md R102: XIN takes the whole operand, and no other register changes. -/
def Obligations.SetxinWritesXinOnly : Prop :=
  EncodedAs 0x02#32 0xFFFFFFFF#32 (fun _ => .setxin) ∧
  ∀ s : State, exec .setxin s = .next { s with xin := toValue s.operand, phase := .executing ⟨.ok, 0⟩ }

/-- 40_config.md R103: XOUT takes the whole operand, and no other register changes. -/
def Obligations.SetxoutWritesXoutOnly : Prop :=
  EncodedAs 0x03#32 0xFFFFFFFF#32 (fun _ => .setxout) ∧
  ∀ s : State, exec .setxout s = .next { s with xout := toValue s.operand, phase := .executing ⟨.ok, 0⟩ }

/-- 40_config.md R104 and 10_state.md R35, R36. That index 0 answers only the WMAX low bits of the configuration image, which matters
for WMAX below 18, is the model's reading (log entry 3). -/
def Obligations.RdregReturnsTheIndexedRegister : Prop :=
  EncodedAs 0x04#32 0xFFFF00FF#32 (fun word => .rdreg (word.toNat / 2 ^ 8 % 2 ^ 8)) ∧
  ∀ s : State,
    exec (.rdreg 0) s = .next { s with
          phase := .executing ⟨.ok, toValue ((s.width * 2 ^ 8 + (if s.ri then 2 ^ 16 else 0) + (if s.ro then 2 ^ 17 else 0)) % 2 ^ s.wmax)⟩ } ∧
    exec (.rdreg 1) s = .next { s with phase := .executing ⟨.ok, s.poly⟩ } ∧
    exec (.rdreg 2) s = .next { s with phase := .executing ⟨.ok, s.xin⟩ } ∧
    exec (.rdreg 3) s = .next { s with phase := .executing ⟨.ok, s.xout⟩ } ∧
    exec (.rdreg 4) s = .next { s with phase := .executing ⟨.ok, s.bsAcc⟩ } ∧
    exec (.rdreg 5) s = .next { s with phase := .executing ⟨.ok, s.bsCnt.setWidth 127⟩ } ∧
    exec (.rdreg 6) s = .next { s with phase := .executing ⟨.ok, s.tdAcc⟩ } ∧
    exec (.rdreg 7) s = .next { s with phase := .executing ⟨.ok, toValue s.wmax⟩ } ∧
    ∀ idx, 7 < idx → exec (.rdreg idx) s = .next { s with phase := .executing ⟨.badArg, 0⟩ }

/-- 43_bitserial.md R160. -/
def Obligations.BsInitClearsAccumulatorAndCounter : Prop :=
  EncodedAs 0x10#32 0xFFFFFFFF#32 (fun _ => .bsInit) ∧
  ∀ s : State,
    (s.w ≠ 0 → exec .bsInit s = .next { s with bsAcc := 0, bsCnt := 0, phase := .executing ⟨.ok, 0⟩ }) ∧
    (s.w = 0 → exec .bsInit s = .next { s with phase := .executing ⟨.noCfg, 0⟩ })

/-- 43_bitserial.md R164: eight bit steps on the byte, reflected first when RI is 1, bit 7 first. -/
def Obligations.BsByteFeedsEightBitsFromTheTop : Prop :=
  EncodedAs 0x11#32 0xFFFFFFFF#32 (fun _ => .bsByte) ∧
  ∀ s : State,
    (s.w ≠ 0 → ∀ d, d = (if s.ri then reflect8 (s.operand % 2 ^ 8) else s.operand % 2 ^ 8) →
      exec .bsByte s =
        .next { bsStep (bsStep (bsStep (bsStep (bsStep (bsStep (bsStep (bsStep s
                  (d.testBit 7)) (d.testBit 6)) (d.testBit 5)) (d.testBit 4)) (d.testBit 3)) (d.testBit 2))
                  (d.testBit 1)) (d.testBit 0) with phase := .executing ⟨.ok, 0⟩ }) ∧
    (s.w = 0 → exec .bsByte s = .next { s with phase := .executing ⟨.noCfg, 0⟩ })

/-- 43_bitserial.md R165: one bit step on bit 0 of the operand, whatever RI is. -/
def Obligations.BsBitFeedsOperandBitZero : Prop :=
  EncodedAs 0x12#32 0xFFFFFFFF#32 (fun _ => .bsBit) ∧
  ∀ s : State,
    (s.w ≠ 0 →
      exec .bsBit s = .next { bsStep s (decide (s.operand % 2 = 1)) with phase := .executing ⟨.ok, 0⟩ }) ∧
    (s.w = 0 → exec .bsBit s = .next { s with phase := .executing ⟨.noCfg, 0⟩ })

/-- 43_bitserial.md R166, R163: the augmented accumulator, reflected when RO is 1, XOR the masked XOUT; nothing is written. -/
def Obligations.BsFinalReturnsTheCrcAndWritesNothing : Prop :=
  EncodedAs 0x13#32 0xFFFFFFFF#32 (fun _ => .bsFinal) ∧
  ∀ s : State,
    (s.w ≠ 0 →
      exec .bsFinal s = .next { s with
          phase := .executing ⟨.ok, toValue ((if s.ro then reflect (flush s) s.width else flush s) ^^^ (s.xout.toNat % 2 ^ s.width))⟩ }) ∧
    (s.w = 0 → exec .bsFinal s = .next { s with phase := .executing ⟨.noCfg, 0⟩ })

/-- 44_tabledriven.md R190: TD_ACC takes XIN below W, and the two errors write nothing. -/
def Obligations.TdInitSeedsTheAccumulatorWithXin : Prop :=
  EncodedAs 0x20#32 0xFFFFFFFF#32 (fun _ => .tdInit) ∧
  ∀ s : State,
    (8 ≤ s.width → s.width % 8 = 0 →
      exec .tdInit s =
        .next { s with tdAcc := toValue (s.xin.toNat % 2 ^ s.width), phase := .executing ⟨.ok, 0⟩ }) ∧
    (s.w = 0 → exec .tdInit s = .next { s with phase := .executing ⟨.noCfg, 0⟩ }) ∧
    (s.w ≠ 0 → s.width < 8 ∨ s.width % 8 ≠ 0 →
      exec .tdInit s = .next { s with phase := .executing ⟨.badWidth, 0⟩ })

/-- 44_tabledriven.md R192: one table step on the byte, reflected first when RI is 1, and the two errors write nothing. -/
def Obligations.TdByteTakesOneTableStep : Prop :=
  EncodedAs 0x21#32 0xFFFFFFFF#32 (fun _ => .tdByte) ∧
  ∀ s : State,
    (8 ≤ s.width → s.width % 8 = 0 →
      ∀ d, d = (if s.ri then reflect8 (s.operand % 2 ^ 8) else s.operand % 2 ^ 8) →
      exec .tdByte s = .next { tdStep s d with phase := .executing ⟨.ok, 0⟩ }) ∧
    (s.w = 0 → exec .tdByte s = .next { s with phase := .executing ⟨.noCfg, 0⟩ }) ∧
    (s.w ≠ 0 → s.width < 8 ∨ s.width % 8 ≠ 0 →
      exec .tdByte s = .next { s with phase := .executing ⟨.badWidth, 0⟩ })

/-- 44_tabledriven.md R193, 43_bitserial.md R163: TD_ACC below W, reflected when RO is 1, XOR the masked XOUT; nothing is
written. -/
def Obligations.TdFinalReturnsTheCrcAndWritesNothing : Prop :=
  EncodedAs 0x22#32 0xFFFFFFFF#32 (fun _ => .tdFinal) ∧
  ∀ s : State,
    (8 ≤ s.width → s.width % 8 = 0 → ∀ r, r = s.tdAcc.toNat % 2 ^ s.width →
      exec .tdFinal s = .next { s with
          phase := .executing ⟨.ok, toValue ((if s.ro then reflect r s.width else r) ^^^ (s.xout.toNat % 2 ^ s.width))⟩ }) ∧
    (s.w = 0 → exec .tdFinal s = .next { s with phase := .executing ⟨.noCfg, 0⟩ }) ∧
    (s.w ≠ 0 → s.width < 8 ∨ s.width % 8 ≠ 0 →
      exec .tdFinal s = .next { s with phase := .executing ⟨.badWidth, 0⟩ })

/-- 42_table.md R141: the entry of the table of the masked polynomial, at every configured width; the corner cases index 0,
index 1 and a zero polynomial; nothing is written. -/
def Obligations.TblRdReturnsTheTableEntry : Prop :=
  EncodedAs 0x23#32 0xFFFF00FF#32 (fun word => .tblRd (word.toNat / 2 ^ 8 % 2 ^ 8)) ∧
  ∀ (s : State) (idx : Nat), idx < 256 →
    (s.w ≠ 0 →
      exec (.tblRd idx) s = .next { s with
          phase := .executing ⟨.ok, toValue (tableEntry (s.poly.toNat % 2 ^ s.width) s.width idx)⟩ }) ∧
    (s.w ≠ 0 → idx = 0 → exec (.tblRd idx) s = .next { s with phase := .executing ⟨.ok, 0⟩ }) ∧
    (s.w ≠ 0 → idx = 1 →
      exec (.tblRd idx) s = .next { s with phase := .executing ⟨.ok, toValue (s.poly.toNat % 2 ^ s.width)⟩ }) ∧
    (s.w ≠ 0 → s.poly.toNat % 2 ^ s.width = 0 →
      exec (.tblRd idx) s = .next { s with phase := .executing ⟨.ok, 0⟩ }) ∧
    (s.w = 0 → exec (.tblRd idx) s = .next { s with phase := .executing ⟨.noCfg, 0⟩ })

/-- 41_reflect.md R122, R120: bit i of the answer is bit w-1-i of the operand for i below w, and 0 above; nothing is written and
W is not used. -/
def Obligations.ReflReversesTheLowBits : Prop :=
  EncodedAs 0x30#32 0xFFFF80FF#32 (fun word => .refl (word.toNat / 2 ^ 8 % 2 ^ 7)) ∧
  ∀ (s : State) (wf : Nat),
    (1 ≤ wf → wf ≤ s.wmax →
      ∃ v : Value, exec (.refl wf) s = .next { s with phase := .executing ⟨.ok, v⟩ } ∧
        ∀ i, v.toNat.testBit i = (decide (i < wf) && s.operand.testBit (wf - 1 - i))) ∧
    (wf = 0 ∨ s.wmax < wf → exec (.refl wf) s = .next { s with phase := .executing ⟨.badArg, 0⟩ })

/-- 41_reflect.md R123, R121: the same for the low byte of the operand. -/
def Obligations.Refl8ReversesTheLowByte : Prop :=
  EncodedAs 0x31#32 0xFFFFFFFF#32 (fun _ => .refl8) ∧
  ∀ s : State,
    ∃ v : Value, exec .refl8 s = .next { s with phase := .executing ⟨.ok, v⟩ } ∧
      ∀ i, v.toNat.testBit i = (decide (i < 8) && s.operand.testBit (7 - i))

/-! ## Decoding and the step -/

/-- 00_scope.md R14, 20_memory.md R53, R56: the edge that accepts a word that decodes to an instruction runs that
instruction's meaning, and adds only that the edge is over. That the writes stand already after that edge is log entry 6. -/
def Obligations.AcceptingEdgeRunsTheDecodedInstruction : Prop :=
  ∀ (s : State) (word : CmdWord) (i : Instr), Accepts s word → decode word = .ok i →
    step s = afterEdge (exec i s) ∧
    ∀ t, exec i s = .next t → step s = .next { t with inputs := s.inputs.tail }

/-- 30_encoding.md R90 and R80: words of every family, written out from the formats of R71 to R74, and two words that select no
row. That these two are rejected is R82 and R83; that the rejection has one of two names, where the spec has the one
status `ILLEGAL`, is the model's choice (log entry 16, DESIGN CHOICE). -/
def Obligations.SampleWordsDecodeAsTheSpecLists : Prop :=
  decode 0x00000000#32 = .ok .nop ∧ decode 0x00032001#32 = .ok (.cfg 32 true true) ∧
  decode 0x00001001#32 = .ok (.cfg 16 false false) ∧ decode 0x00000604#32 = .ok (.rdreg 6) ∧
  decode 0x00000013#32 = .ok .bsFinal ∧ decode 0x00000021#32 = .ok .tdByte ∧
  decode 0x0000FF23#32 = .ok (.tblRd 255) ∧ decode 0x00002030#32 = .ok (.refl 32) ∧
  decode 0x00008001#32 = .error .reservedBits ∧ decode 0x00000005#32 = .error .unassignedOpcode

/-- 30_encoding.md R82, R83, R84: a word whose opcode is one of the 241 unassigned values, and a word with an assigned opcode
that selects no row, are answered `ILLEGAL` with data 0 and no register written; so is every word that selects no row. -/
def Obligations.WordsOfNoRowAreAnsweredIllegal : Prop :=
  ∀ (s : State) (word : CmdWord), Accepts s word →
    (∀ opc, opc = word.toNat % 2 ^ 8 →
      (5 ≤ opc ∧ opc ≤ 0x0F) ∨ (0x14 ≤ opc ∧ opc ≤ 0x1F) ∨ (0x24 ≤ opc ∧ opc ≤ 0x2F) ∨ 0x32 ≤ opc →
        step s = .next (s.answered .illegal 0)) ∧
    (∀ row ∈ opcodeTable, word &&& 0xFF#32 = row.pattern &&& 0xFF#32 → word &&& row.mask ≠ row.pattern →
      step s = .next (s.answered .illegal 0)) ∧
    ((∀ row ∈ opcodeTable, word &&& row.mask ≠ row.pattern) → step s = .next (s.answered .illegal 0))

/-- 30_encoding.md R85 and R86: which error a decoded command is answered, and that a command that passes the checks is
answered `OK`. -/
def Obligations.ChecksDecideTheStatusOfACommand : Prop :=
  ∀ (i : Instr) (s : State),
    (ArgumentBad s i → exec i s = .next { s with phase := .executing ⟨.badArg, 0⟩ }) ∧
    (needsConfiguration i = true → s.w = 0 → exec i s = .next { s with phase := .executing ⟨.noCfg, 0⟩ }) ∧
    (needsTableWidth i = true → s.w ≠ 0 → s.width < 8 ∨ s.width % 8 ≠ 0 →
      exec i s = .next { s with phase := .executing ⟨.badWidth, 0⟩ }) ∧
    (¬ArgumentBad s i → (needsConfiguration i = true → s.w ≠ 0) →
      (needsTableWidth i = true → 8 ≤ s.width ∧ s.width % 8 = 0) →
      ∃ t v, exec i s = .next t ∧ t.phase = .executing ⟨.ok, v⟩)

/-- 60_exceptions.md R243: the response of an accepted word reports the first failing check in the order `ILLEGAL`, `BADARG`,
`NOCFG`, `BADWIDTH`. -/
def Obligations.FirstFailingCheckIsReported : Prop :=
  ∀ (s : State) (word : CmdWord), Accepts s word →
    ∃ t r, step s = .next t ∧ t.phase = .executing r ∧
      ((∀ e, decode word = .error e → r.status = .illegal) ∧
       ∀ i, decode word = .ok i →
        (ArgumentBad s i → r.status = .badArg) ∧
        (¬ArgumentBad s i → needsConfiguration i = true → s.w = 0 → r.status = .noCfg) ∧
        (¬ArgumentBad s i → needsTableWidth i = true → s.w ≠ 0 → s.width < 8 ∨ s.width % 8 ≠ 0 →
          r.status = .badWidth))

/-- 60_exceptions.md R241: a response whose status is not `OK` has data 0, and the edge that accepted its command left every
register as it was. -/
def Obligations.ErrorsWriteNothingAndAnswerZero : Prop :=
  ∀ (s : State) (word : CmdWord), Accepts s word →
    ∃ t r, step s = .next t ∧ t.phase = .executing r ∧ (r.status ≠ .ok → r.data = 0 ∧ SameRegisters s t)

/-- 60_exceptions.md R240: the five codes, and that no response ever carries 5, 6 or 7. -/
def Obligations.StatusCodesAreZeroToFour : Prop :=
  Status.code .ok = 0 ∧ Status.code .illegal = 1 ∧ Status.code .badArg = 2 ∧ Status.code .noCfg = 3 ∧
  Status.code .badWidth = 4 ∧ ∀ st : Status, st.code ≠ 5 ∧ st.code ≠ 6 ∧ st.code ≠ 7

/-- 60_exceptions.md, section 1 (the paragraph "How a model reads the codes"): every edge has a next state. -/
def Obligations.EveryEdgeHasANextState : Prop := ∀ s : State, ∃ t, step s = .next t

/-- 30_encoding.md R88 and R80: the word of every well-formed instruction decodes to that instruction, every field at every
value it can hold. -/
def Obligations.DecodeOfEncodeIsTheInstruction : Prop :=
  ∀ i : Instr, i.WellFormed → decode (encode i) = .ok i

/-- 30_encoding.md, section 4 (the paragraph "There are no hint encodings"): a word that decodes is the word of the instruction
it decodes to, and that instruction is well-formed. -/
def Obligations.EncodeOfDecodeIsTheWord : Prop :=
  ∀ (word : CmdWord) (i : Instr), decode word = .ok i → i.WellFormed ∧ encode i = word

/-! ## Registers, widths, frames -/

/-- 10_state.md R21, R28, 00_scope.md R8, R5: every step keeps every register and the response in flight within its width, and
the parameter WMAX as it is. -/
def Obligations.StepKeepsRegistersWithinWidths : Prop :=
  ∀ s t : State, s.WithinWidths → step s = .next t → t.WithinWidths ∧ t.cfg = s.cfg

/-- 10_state.md R38: the reset state of every block is within its widths. -/
def Obligations.ResetIsWithinWidths : Prop := ∀ c : Config, (State.resetOf c).WithinWidths

/-- 10_state.md, section 3 (the table "Which command writes which register"): a command leaves every register outside its "w"
entries, its answer and what it writes depend on no register outside its "r" entries, and an error writes nothing. -/
def Obligations.CommandsReadAndWriteOnlyTheirRegisters : Prop :=
  (∀ (i : Instr) (s t : State), exec i s = .next t →
    t.cfg = s.cfg ∧ t.inputs = s.inputs ∧ (∀ r, r ∉ registersWritten i → t.reg r = s.reg r) ∧
    ∀ a, t.phase = .executing a → a.status ≠ .ok → ∀ r, t.reg r = s.reg r) ∧
  ∀ (i : Instr) (s s' : State), s'.cfg = s.cfg → s'.inputs = s.inputs →
    (∀ r ∈ registersRead i, s'.reg r = s.reg r) →
    ∃ t t', exec i s = .next t ∧ exec i s' = .next t' ∧ t'.inFlight = t.inFlight ∧
      ∀ r ∈ registersWritten i, t'.reg r = t.reg r ∨ (t'.reg r = s'.reg r ∧ t.reg r = s.reg r)

/-- 20_memory.md R60: two operands that agree on the bits a command reads give the same answer and the same registers. -/
def Obligations.UnreadOperandBitsHaveNoEffect : Prop :=
  ∀ (i : Instr) (s : State) (d d' : Value),
    d.toNat &&& operandBitsRead s i = d'.toNat &&& operandBitsRead s i →
    ∃ t t', exec i (s.driving d) = .next t ∧ exec i (s.driving d') = .next t' ∧
      ({ t with inputs := [] } : State) = { t' with inputs := [] }

/-- 10_state.md R21: only a successful `CFG` or reset changes W, and a configured block stays configured until reset. That `CFG`
changes it at the edge that accepts it is log entry 6. -/
def Obligations.OnlyCfgAndResetChangeTheWidth : Prop :=
  ∀ s t : State, step s = .next t → s.edge.rst = false →
    (t.w = s.w ∨ ∃ wf rif rof, s.phase = .idle ∧ s.edge.cmdValid = true ∧
      decode s.edge.cmdWord = .ok (.cfg wf rif rof) ∧ 1 ≤ wf ∧ wf ≤ s.wmax ∧ t.width = wf) ∧
    (s.w ≠ 0 → t.w ≠ 0)

/-- 20_memory.md, section 4 (the paragraph "Side effects and idempotency"): the commands that write no register, the commands that
twice in a row leave what once leaves, and the three that do not. -/
def Obligations.RepeatedCommandsAreIdempotentExceptMessageSteps : Prop :=
  (∀ (i : Instr) (s : State), i ∉ [Instr.bsByte, .bsBit, .tdByte] →
    ∃ t, exec i s = .next t ∧ exec i t = .next t) ∧
  (∀ (i : Instr) (s t : State), registersWritten i = [] → exec i s = .next t → SameRegisters s t) ∧
  ∀ i ∈ [Instr.bsByte, .bsBit, .tdByte], ∃ s t u, exec i s = .next t ∧ exec i t = .next u ∧ ¬SameRegisters t u

/-- 10_state.md, the configuration image (R36): on a block whose response bus holds it, the image with bit 0 set is a `CFG` word
that writes back the W, RI and RO it was read from. -/
def Obligations.ConfigurationImageIsACfgWord : Prop :=
  ∀ s : State, s.WithinWidths → 18 ≤ s.wmax → s.w ≠ 0 →
    ∃ v : Value, exec (.rdreg 0) s = .next { s with phase := .executing ⟨.ok, v⟩ } ∧
      decode (v.setWidth 32 ||| 1#32) = .ok (.cfg s.width s.ri s.ro) ∧
      exec (.cfg s.width s.ri s.ro) s = .next { s with poly := toValue s.operand, phase := .executing ⟨.ok, 0⟩ }

/-! ## Reflection and the table -/

/-- 41_reflect.md, section 3 (the laws): involution on w bits, zero, agreement of the fixed form, bound. -/
def Obligations.ReflectionLaws : Prop :=
  ∀ x w : Nat, reflect (reflect x w) w = x % 2 ^ w ∧ reflect 0 w = 0 ∧ reflect8 x = reflect x 8 ∧
    reflect x w < 2 ^ w ∧ reflect (x % 2 ^ w) w = reflect x w

/-- 41_reflect.md, section 1 (the three-step form of the byte reflection, from general knowledge there): it has the same 256
values. -/
def Obligations.ThreeStepByteReversalIsReflect8 : Prop :=
  ∀ x, x < 256 → ∀ a b, a = ((x &&& 0x55) <<< 1) ||| ((x >>> 1) &&& 0x55) →
    b = ((a &&& 0x33) <<< 2) ||| ((a >>> 2) &&& 0x33) →
    (((b &&& 0x0F) <<< 4) ||| ((b >>> 4) &&& 0x0F)) &&& 0xFF = reflect8 x

/-- 42_table.md, section 2 (the laws of the table), with g the shift-and-reduce step named there. -/
def Obligations.TableLaws : Prop :=
  ∀ (p w : Nat) (g : Nat → Nat), 1 ≤ w → p < 2 ^ w →
    (∀ c, g c = ((2 * c) ^^^ (if c.testBit (w - 1) then p else 0)) % 2 ^ w) →
    tableEntry p w 0 = 0 ∧ tableEntry p w 1 = p ∧
    (∀ a b, a < 256 → b < 256 → tableEntry p w (a ^^^ b) = tableEntry p w a ^^^ tableEntry p w b) ∧
    (∀ k, k < 8 → tableEntry p w (2 ^ k) = g^[k + 1] (2 ^ (w - 1))) ∧
    (8 ≤ w → ∀ b, b < 256 → tableEntry p w b = g^[8] (b * 2 ^ (w - 8)))

/-- 42_table.md R140, 00_scope.md R8: every entry of the table is below 2^w. -/
def Obligations.TableEntriesFitTheWidth : Prop :=
  ∀ p w idx : Nat, tableEntry p w idx < 2 ^ w

/-! ## The bit-serial engine -/

/-- 43_bitserial.md R161, in arithmetic: shift in, reduce by the masked polynomial, keep W bits, XOR-in at message bit W, count to
WMAX; no other register changes. -/
def Obligations.BitStepShiftsReducesMasksThenXorsIn : Prop :=
  ∀ (s : State) (b : Bool) (u r : Nat), u = 2 * s.bsAcc.toNat + (if b then 1 else 0) →
    r = (if u / 2 ^ s.width % 2 = 1 then u ^^^ (s.poly.toNat % 2 ^ s.width) else u) % 2 ^ s.width →
    bsStep s b = { s with
      bsAcc := toValue (if s.bsCnt.toNat + 1 = s.width then r ^^^ (s.xin.toNat % 2 ^ s.width) else r)
      bsCnt := BitVec.ofNat 7 (min (s.bsCnt.toNat + 1) s.wmax) } ∧
    (bsStep s b).bsAcc.toNat < 2 ^ s.width

/-- 43_bitserial.md R162, R163: the augmented value and the transformed value stay below 2^W on a configured block. -/
def Obligations.AugmentedAndFinalizedValuesFitTheWidth : Prop :=
  ∀ (s : State) (r : Nat), s.w ≠ 0 → flush s < 2 ^ s.width ∧
    (r < 2 ^ s.width → finalize r s = (if s.ro then reflect r s.width else r) ^^^ (s.xout.toNat % 2 ^ s.width) ∧
      finalize r s < 2 ^ s.width)

/-- 43_bitserial.md, section 3 (the paragraph "No reduction in the first W steps"). -/
def Obligations.FirstBitsEnterUnreduced : Prop :=
  ∀ (s : State) (bits : List Bool), s.bsAcc = 0 → s.bsCnt = 0 → s.w ≠ 0 → s.width ≤ s.wmax →
    (bits.length < s.width →
      (bsFeed s bits).bsAcc.toNat = bitsValue bits ∧
      ∀ b, (2 * (bsFeed s bits).bsAcc.toNat + bit b).testBit s.width = false) ∧
    (bits.length = s.width → (bsFeed s bits).bsAcc.toNat = bitsValue bits ^^^ (s.xin.toNat % 2 ^ s.width))

/-- 43_bitserial.md, section 3 (the paragraph "XOR-in count"), 90_conflicts.md C2: a message of fewer than W bits never receives the
XOR-in, and one of at least W bits receives it as if it were XORed in between bit W and bit W+1. -/
def Obligations.XorInEntersOnceAfterTheFirstWidthBits : Prop :=
  ∀ (s : State) (bits : List Bool), s.bsCnt = 0 → s.w ≠ 0 → s.width ≤ s.wmax →
    (bits.length < s.width →
      (bsFeed s bits).bsAcc.toNat = bits.foldl (shiftIn s.maskedPoly s.width) s.bsAcc.toNat) ∧
    (s.width ≤ bits.length →
      (bsFeed s bits).bsAcc.toNat =
        (bits.drop s.width).foldl (shiftIn s.maskedPoly s.width)
          ((bits.take s.width).foldl (shiftIn s.maskedPoly s.width) s.bsAcc.toNat ^^^ (s.xin.toNat % 2 ^ s.width)))

/-- 10_state.md R28: BS_CNT counts the bits taken in and stops at WMAX. -/
def Obligations.CounterCountsMessageBitsUpToWmax : Prop :=
  ∀ (s : State) (bits : List Bool), s.bsCnt.toNat ≤ s.wmax →
    (bsFeed s bits).bsCnt.toNat = min (s.bsCnt.toNat + bits.length) s.wmax

/-- 43_bitserial.md R165 (its corner case): eight `BS_BIT` commands with the bits of a byte from bit 7 to bit 0 leave what one
`BS_BYTE` leaves when RI is 0. -/
def Obligations.EightBitCommandsEqualOneByteCommand : Prop :=
  ∀ (s : State) (d : Nat), s.ri = false → s.w ≠ 0 →
    ∃ t rs u r, transactAll s ([7, 6, 5, 4, 3, 2, 1, 0].map fun k => commandOf .bsBit (bit (d.testBit k))) = some (t, rs) ∧
      transact s (commandOf .bsByte d) = some (u, r) ∧ SameRegisters t u ∧ r = ⟨.ok, 0⟩ ∧ ∀ a ∈ rs, a = ⟨.ok, 0⟩

/-- 43_bitserial.md, section 3 (the paragraph "Width-1 behaviour"). -/
def Obligations.WidthOneIsParity : Prop :=
  (∀ (s : State) (b : Bool), s.width = 1 → s.poly.toNat % 2 = 1 → s.bsAcc.toNat < 2 →
    (bsStep s b).bsAcc.toNat = s.bsAcc.toNat ^^^ bit b ^^^ (if s.bsCnt = 0 then s.xin.toNat % 2 else 0) ∧
    flush s = s.bsAcc.toNat) ∧
  (∀ (s : State) (d : Nat), s.width = 1 → s.poly.toNat % 2 = 1 →
    lastResponse s (bsMessage [d]) =
      some ⟨.ok, toValue (((byteBits d).filter id).length % 2 ^^^ (s.xin.toNat % 2) ^^^ (s.xout.toNat % 2))⟩) ∧
  ∀ (s : State) (bytes : List Nat), s.width = 1 → s.poly.toNat % 2 = 0 →
    lastResponse s (bsMessage bytes) = some ⟨.ok, toValue (s.xout.toNat % 2)⟩

/-- 43_bitserial.md, section 3 (the paragraph "The source's call, as a command sequence"): from any state of the block, the
last response is the source's `crc_bitwise` of the message. `crcBitwise` is the model's transcription of that source function (log
entry 18, DEDUCED). -/
def Obligations.BitSerialCallComputesCrcBitwise : Prop :=
  ∀ (s : State) (p : CrcParams) (bytes : List Nat), 1 ≤ p.width → p.width ≤ s.wmax →
    lastResponse s (bsCall p bytes) = some ⟨.ok, toValue (crcBitwise p bytes)⟩

/-- 00_scope.md, section 5 (the glossary's "polynomial division over GF(2)") and 43_bitserial.md R161, R162: without XOR-in and
output transforms `BS_FINAL` returns the remainder of the message times x^W by the generator x^W + P. -/
def Obligations.BsFinalIsTheRemainderOverGF2 : Prop :=
  ∀ (s : State) (bits : List Bool), s.w ≠ 0 → s.bsAcc = 0 → s.bsCnt = 0 → s.maskedXin = 0 → s.maskedXout = 0 →
    s.ro = false →
    ∃ v : Value, exec .bsFinal (bsFeed s bits) =
        .next { bsFeed s bits with phase := .executing ⟨.ok, v⟩ } ∧
      v.toNat < 2 ^ s.width ∧
      IsPolyMultiple (2 ^ s.width + s.poly.toNat % 2 ^ s.width) ((bitsValue bits * 2 ^ s.width) ^^^ v.toNat)

/-! ## The table-driven engine, and the two engines together -/

/-- 44_tabledriven.md R191, in arithmetic, and its remark that bits of TD_ACC at or above W have no effect. -/
def Obligations.TableStepShiftsAByteThroughTheTable : Prop :=
  ∀ (s : State) (d a : Nat), 8 ≤ s.width → d < 256 → a = s.tdAcc.toNat →
    tdStep s d = { s with
      tdAcc := toValue (((a * 2 ^ 8) ^^^ tableEntry (s.poly.toNat % 2 ^ s.width) s.width ((a / 2 ^ (s.width - 8) % 2 ^ 8) ^^^ d)) % 2 ^ s.width) } ∧
    (tdStep s d).tdAcc = (tdStep { s with tdAcc := toValue (a % 2 ^ s.width) } d).tdAcc ∧
    (s.width = 8 → a < 256 →
      (tdStep s d).tdAcc = toValue (tableEntry (s.poly.toNat % 2 ^ 8) 8 (a ^^^ d)))

/-- 44_tabledriven.md, section 3 (the paragraph "The source's call, as a command sequence"): from any state of the block, the
last response is the source's `crc_table` of the message. `crcTableDriven` is the model's transcription of that source function
(log entry 18, DEDUCED). -/
def Obligations.TableDrivenCallComputesCrcTable : Prop :=
  ∀ (s : State) (p : CrcParams) (bytes : List Nat), 8 ≤ p.width → p.width ≤ s.wmax → p.width % 8 = 0 →
    lastResponse s (tdCall p bytes) = some ⟨.ok, toValue (crcTableDriven p bytes)⟩

/-- 44_tabledriven.md, section 3 (the paragraph "Resumable accumulator"): carrying TD_ACC through `SETXIN` and `TD_INIT` gives the
same last response as going on with the message. -/
def Obligations.ResumedTableMessageGivesTheSameCrc : Prop :=
  ∀ (s : State) (first rest : List Nat), 8 ≤ s.width → s.width % 8 = 0 → s.width ≤ s.wmax →
    ∃ t rs, transactAll s (commandOf .tdInit 0 :: first.map (commandOf .tdByte)) = some (t, rs) ∧
      ∃ r, lastResponse t (rest.map (commandOf .tdByte) ++ [commandOf .tdFinal 0]) = some r ∧ r.status = .ok ∧
        lastResponse t (commandOf .setxin t.tdAcc.toNat :: tdMessage rest) = some r ∧
        lastResponse s (tdMessage (first ++ rest)) = some r

/-- 44_tabledriven.md, section 3 (the paragraph "Per-step relation to the bit-serial engine"), 90_conflicts.md C5: with XI = 0 and both
engines started, TD_ACC after any bytes is the augmented BS_ACC after the same bytes. -/
def Obligations.TableAccumulatorIsTheAugmentedBitSerialOne : Prop :=
  ∀ (s : State) (bytes : List Nat), 8 ≤ s.width → s.width % 8 = 0 → s.maskedXin = 0 → s.bsAcc = 0 → s.bsCnt = 0 →
    s.tdAcc = 0 →
    ∃ t rs u rs', transactAll s (bytes.map (commandOf .bsByte)) = some (t, rs) ∧
      transactAll s (bytes.map (commandOf .tdByte)) = some (u, rs') ∧ u.tdAcc.toNat = flush t

/-- 43_bitserial.md, section 3 (the paragraph "Agreement with the table-driven engine"), 90_conflicts.md C2: both engines return the same
value for a message of at least W bits or with XI = 0; with fewer bits and XI not 0 they can differ. The message has at least one
byte, as in that paragraph (R171). -/
def Obligations.EnginesAgreeOnMessagesOfAtLeastWidthBits : Prop :=
  (∀ (s : State) (bytes : List Nat), 8 ≤ s.width → s.width % 8 = 0 → s.width ≤ s.wmax → bytes ≠ [] →
    s.width ≤ 8 * bytes.length ∨ s.maskedXin = 0 →
    ∃ v, lastResponse s (bsMessage bytes) = some ⟨.ok, v⟩ ∧ lastResponse s (tdMessage bytes) = some ⟨.ok, v⟩) ∧
  ∃ (s : State) (bytes : List Nat), 8 ≤ s.width ∧ s.width % 8 = 0 ∧ s.WithinWidths ∧ bytes ≠ [] ∧
    8 * bytes.length < s.width ∧ s.maskedXin ≠ 0 ∧
    ∃ v v', lastResponse s (bsMessage bytes) = some ⟨.ok, v⟩ ∧ lastResponse s (tdMessage bytes) = some ⟨.ok, v'⟩ ∧ v ≠ v'

/-! ## Reset and the handshake -/

/-- 70_reset_and_hazards.md R271, R272 and the register values of R270: at an edge with `rst` = 1 every register is cleared
whatever the phase, no response survives and no command is accepted; the first edge with `rst` = 0 makes the block idle. -/
def Obligations.ResetClearsRegistersAndCancelsTheCommand : Prop :=
  (∀ s : State, s.edge.rst = true →
    step s = .next { cfg := s.cfg, w := 0, ri := false, ro := false, poly := 0, xin := 0, xout := 0, bsAcc := 0, bsCnt := 0,
                     tdAcc := 0, phase := .inReset, inputs := s.inputs.tail } ∧
    ∀ t, step s = .next t → t.cmdReady = false ∧ t.rsp = none ∧ t.inFlight = none) ∧
  ∀ s : State, s.phase = .inReset → s.edge.rst = false →
    step s = .next { s with phase := .idle, inputs := s.inputs.tail }

/-- 20_memory.md R53: a command is accepted exactly at an edge with `rst` = 0, `cmd_valid` = 1 and `cmd_ready` = 1, and it is the one
on the port at that edge; what the host drives on the command port at another edge has no effect. That the accepted command's
writes stand already after the edge that samples it is the model's reading (log entry 6, DEDUCED). -/
def Obligations.CommandPortIsSampledOnlyAtAcceptance : Prop :=
  (∀ s : State, s.event = .accept ↔ s.edge.rst = false ∧ s.edge.cmdValid = true ∧ s.cmdReady = true) ∧
  (∀ (s : State) (i : Instr), s.event = .accept → decode s.edge.cmdWord = .ok i →
    s.operand = s.edge.cmdData.toNat % 2 ^ s.wmax ∧
    ∃ t, exec i s = .next t ∧ step s = .next { t with inputs := s.inputs.tail }) ∧
  ∀ (s : State) (e : Edge) (valid : Bool) (word : CmdWord) (data : Value),
    (s.atEdge e).event ≠ .accept →
    (s.atEdge { e with cmdValid := valid, cmdWord := word, cmdData := data }).event ≠ .accept →
    step (s.atEdge e) = step (s.atEdge { e with cmdValid := valid, cmdWord := word, cmdData := data })

/-- 20_memory.md R54, R55: from acceptance to handover `cmd_ready` is 0; a finished command's response is offered and held until
the host takes it; then the block is idle. Two clauses rest on the model's choices: that the edges of an executing command
change no register, its writes being made at the edge that accepts it (log entry 6, DEDUCED; 00_scope.md R11 has them at
completion), and that a field of the edge says when the command is finished (log entry 5, DESIGN CHOICE). -/
def Obligations.ResponseIsHeldUntilTaken : Prop :=
  (∀ s : State, s.cmdReady = true → s.inFlight = none ∧ s.rsp = none) ∧
  (∀ s : State, s.event = .accept → ∃ t r, step s = .next t ∧ t.cmdReady = false ∧ t.rsp = none ∧ t.inFlight = some r) ∧
  (∀ (s : State) (r : Response), s.phase = .executing r → s.edge.rst = false →
    ∃ t, step s = .next t ∧ SameRegisters s t ∧ t.cmdReady = false ∧ t.inFlight = some r ∧
      (t.rsp = some r ↔ s.edge.finish = true)) ∧
  ∀ (s : State) (r : Response), s.rsp = some r → s.edge.rst = false →
    ∃ t, step s = .next t ∧ SameRegisters s t ∧
      (s.edge.rspReady = false → t.rsp = some r ∧ t.cmdReady = false) ∧
      (s.edge.rspReady = true → t.rsp = none ∧ t.cmdReady = true)

/-- 48_host_side.md R226, 20_memory.md R54: as long as the host neither takes the response nor resets, the block holds the
response and its registers and accepts no command. -/
def Obligations.WithheldReadyBlocksForEver : Prop :=
  ∀ (s : State) (r : Response) (es : List Edge), s.phase = .responding r →
    (∀ e ∈ es, e.rst = false ∧ e.rspReady = false) →
    ∃ t, afterEdges s es = some t ∧ t.rsp = some r ∧ SameRegisters s t ∧ acceptedOver s es = [] ∧ takenOver s es = []

/-- 70_reset_and_hazards.md, section 3 (the paragraph "Timing a model does not see"), 20_memory.md R55: a command offered to the idle
block is answered; when it is finished at the next edge and the host takes the response at the third, the block is idle
with that command's effect. The number of edges is the model's choice and no figure of the spec: a command may be finished at
any edge after the one that accepts it, also below the nominal counts (log entry 5, DESIGN CHOICE), and its response is
taken at the edge after it is offered at the earliest (log entry 15, DEDUCED). -/
def Obligations.OfferFinishTakeCompletesACommand : Prop :=
  ∀ (s : State) (c : Command), s.phase = .idle →
    ∃ t r u, transact s c = some (t, r) ∧
      afterEdges s [Edge.offering c, Edge.quiet, Edge.taking] = some u ∧ u.phase = .idle ∧ SameRegisters t u ∧
      acceptedOver s [Edge.offering c, Edge.quiet, Edge.taking] = [c] ∧
      takenOver s [Edge.offering c, Edge.quiet, Edge.taking] = [r]

/-- 00_scope.md R14, 20_memory.md R55, R66: over any clock edges without reset, whatever the host drives and however long commands
take, the registers are those of the accepted commands run as transactions one after the other, and the responses
taken, followed by the one in flight, are those transactions' responses in order. While a command is executing its writes already
stand in the registers (log entry 6, DEDUCED). -/
def Obligations.ClockEdgesRefineTransactions : Prop :=
  ∀ (s : State) (es : List Edge), s.phase = .idle → (∀ e ∈ es, e.rst = false) →
    ∃ t u rs, afterEdges s es = some t ∧ transactAll s (acceptedOver s es) = some (u, rs) ∧ SameRegisters u t ∧
      rs = takenOver s es ++ t.inFlight.toList

/-! ## The host's side -/

/-- 48_host_side.md R220, R221: `koopman` keeps the coefficients, one place up with the constant term added and the top term
dropped; the host refuses 0 and widths above WMAX. -/
def Obligations.KoopmanGivesWidthAndImplicitPolynomial : Prop :=
  (∀ k, 1 ≤ k → 2 ^ ((koopman k).1 - 1) ≤ k ∧ k < 2 ^ (koopman k).1 ∧ (koopman k).2 < 2 ^ (koopman k).1 ∧
    (koopman k).2 + 2 ^ (koopman k).1 = 2 * k + 1) ∧
  ∀ (c : Config) (k : Nat), (hostKoopman c k = none ↔ k = 0 ∨ c.wmax < (koopman k).1) ∧
    ∀ wp, hostKoopman c k = some wp → wp = koopman k

/-- 48_host_side.md R222: the container is the smallest of 8, 16, 32, 64 that holds the width, and there is none above 64; the
digit count is the width over 4, rounded up. -/
def Obligations.LutContainerIsTheSmallestThatFits : Prop :=
  ∀ w, (lutContainerBits w = none ↔ 64 < w) ∧
    (∀ n, lutContainerBits w = some n → n ∈ [8, 16, 32, 64] ∧ w ≤ n ∧ ∀ m ∈ [8, 16, 32, 64], w ≤ m → n ≤ m) ∧
    w ≤ 4 * lutHexDigits w ∧ 4 * lutHexDigits w < w + 4
end

