-- ==== Sys2Proof/Laws/Bits.lean ====
section
/-! SUPPORT. What the pure functions of Machine/Bits.lean compute, bit by bit or as a bound. -/

namespace Sys2Proof.Machine

/-! ## Masks and narrowing -/

theorem and_mask (x w : Nat) : x &&& mask w = x % 2 ^ w := Nat.and_two_pow_sub_one_eq_mod x w

theorem and_mask_lt (x w : Nat) : x &&& mask w < 2 ^ w := by
  rw [and_mask]; exact Nat.mod_lt _ (Nat.two_pow_pos w)

theorem and_mask_of_lt {x w : Nat} (h : x < 2 ^ w) : x &&& mask w = x := by
  rw [and_mask, Nat.mod_eq_of_lt h]

theorem testBit_mask (w i : Nat) : (mask w).testBit i = decide (i < w) := Nat.testBit_two_pow_sub_one w i

theorem testBit_and_mask (x w i : Nat) : (x &&& mask w).testBit i = (decide (i < w) && x.testBit i) := by
  rw [Nat.testBit_and, testBit_mask, Bool.and_comm]

@[simp] theorem toValue_toNat (n : Nat) : (toValue n).toNat = n % 2 ^ 127 := BitVec.toNat_ofNat n 127

theorem toValue_toNat_of_lt {n w : Nat} (hw : w ≤ 127) (h : n < 2 ^ w) : (toValue n).toNat = n := by
  rw [toValue_toNat]
  exact Nat.mod_eq_of_lt (h.trans_le (Nat.pow_le_pow_right (by decide) hw))

@[simp] theorem toValue_of_toNat (v : Value) : toValue v.toNat = v := BitVec.ofNat_toNat 127 v

@[simp] theorem bit_true : bit true = 1 := rfl
@[simp] theorem bit_false : bit false = 0 := rfl

theorem testBit_bit (b : Bool) (i : Nat) : (bit b).testBit i = (decide (i = 0) && b) := by
  cases b with
  | false => simp
  | true => cases i <;> simp [Nat.testBit_succ]

/-! ## Reflection -/

/-- The loop of `reflect` after its first n rounds: bits w-1 down to w-n are set. -/
theorem testBit_reflect_loop (x w n i : Nat) (hn : n ≤ w) :
    ((List.range n).foldl (fun r k => if x.testBit k then r ||| (1 <<< (w - 1 - k)) else r) 0).testBit i
      = (decide (i < w) && decide (w - 1 - i < n) && x.testBit (w - 1 - i)) := by
  induction n with
  | zero => simp
  | succ n ih =>
    rw [List.range_succ, List.foldl_append, List.foldl_cons, List.foldl_nil]
    have hbit : (1 <<< (w - 1 - n)).testBit i = decide (i = w - 1 - n) := by
      rw [Nat.one_shiftLeft, Nat.testBit_two_pow]; exact decide_eq_decide.mpr eq_comm
    by_cases hi : i = w - 1 - n
    · have hin : w - 1 - i = n := by omega
      have hiw : i < w := by omega
      split
      · rename_i hx
        rw [Nat.testBit_or, ih (by omega), hbit, hin]
        simp [hi, hx]
        omega
      · rename_i hx
        rw [ih (by omega), hin]
        simp [hx]
    · have heq : (decide (i < w) && decide (w - 1 - i < n + 1)) = (decide (i < w) && decide (w - 1 - i < n)) := by
        by_cases hiw : i < w
        · have : (w - 1 - i < n + 1) ↔ (w - 1 - i < n) := by omega
          simp [this]
        · simp [hiw]
      split
      · rw [Nat.testBit_or, ih (by omega), hbit, heq]
        simp [hi]
      · rw [ih (by omega), heq]

/-- Bit i of the reflection is bit w-1-i of x, for i below w (41_reflect.md R120). -/
theorem testBit_reflect (x w i : Nat) :
    (reflect x w).testBit i = (decide (i < w) && x.testBit (w - 1 - i)) := by
  rw [reflect, testBit_reflect_loop x w w i le_rfl]
  by_cases hi : i < w
  · have : w - 1 - i < w := by omega
    simp [hi, this]
  · simp [hi]

theorem reflect_lt (x w : Nat) : reflect x w < 2 ^ w := by
  refine Nat.lt_pow_two_of_testBit _ fun i hi => ?_
  rw [testBit_reflect]
  simp
  omega

/-! ## The shift steps -/

theorem shiftIn_lt (p w acc : Nat) (b : Bool) : shiftIn p w acc b < 2 ^ w := and_mask_lt _ _

theorem tableAdvance_lt (p w crc : Nat) : tableAdvance p w crc < 2 ^ w := and_mask_lt _ _

theorem testBit_shiftLeft_or_bit (acc i : Nat) (b : Bool) :
    ((acc <<< 1) ||| bit b).testBit i = if i = 0 then b else acc.testBit (i - 1) := by
  rw [Nat.testBit_or, Nat.testBit_shiftLeft, testBit_bit]
  cases i <;> simp

/-- The shift step, bit by bit, for w at least 1: the bit that leaves at the top decides whether p is added. -/
theorem testBit_shiftIn (p w acc i : Nat) (b : Bool) (hw : 1 ≤ w) :
    (shiftIn p w acc b).testBit i =
      (decide (i < w) && ((if i = 0 then b else acc.testBit (i - 1)) ^^ (acc.testBit (w - 1) && p.testBit i))) := by
  have htop : ((acc <<< 1) ||| bit b).testBit w = acc.testBit (w - 1) := by
    rw [testBit_shiftLeft_or_bit, if_neg (by omega)]
  rw [shiftIn, testBit_and_mask]
  simp only [htop]
  cases acc.testBit (w - 1)
  · rw [if_neg (by decide), testBit_shiftLeft_or_bit]; simp
  · rw [if_pos rfl, Nat.testBit_xor, testBit_shiftLeft_or_bit]; simp

/-- The shift step is linear over XOR (42_table.md R142). -/
theorem shiftIn_xor (p w a b : Nat) (c d : Bool) (hw : 1 ≤ w) :
    shiftIn p w (a ^^^ b) (c ^^ d) = shiftIn p w a c ^^^ shiftIn p w b d := by
  refine Nat.eq_of_testBit_eq fun i => ?_
  rw [Nat.testBit_xor]
  simp only [testBit_shiftIn _ _ _ _ _ hw, Nat.testBit_xor]
  cases decide (i < w)
  · rfl
  · by_cases hi : i = 0
    · simp only [hi, if_true]
      cases c <;> cases d <;> cases a.testBit (w - 1) <;> cases b.testBit (w - 1) <;> cases p.testBit 0 <;> rfl
    · simp only [if_neg hi]
      cases a.testBit (i - 1) <;> cases b.testBit (i - 1) <;> cases a.testBit (w - 1) <;> cases b.testBit (w - 1) <;>
        cases p.testBit i <;> rfl

/-- The advance of the table generator is the shift step with bit 0 coming in (42_table.md R140, R142). -/
theorem tableAdvance_eq_shiftIn (p w crc : Nat) (hw : 1 ≤ w) : tableAdvance p w crc = shiftIn p w crc false := by
  refine Nat.eq_of_testBit_eq fun i => ?_
  rw [testBit_shiftIn _ _ _ _ _ hw, tableAdvance, testBit_and_mask, Nat.testBit_xor, Nat.testBit_shiftLeft]
  cases crc.testBit (w - 1) <;> cases i <;> simp

/-! ## The table -/

theorem tablePass_length (p w : Nat) (st : Nat × List Nat) :
    (tablePass p w st).2.length = 2 * st.2.length := by
  simp [tablePass]; omega

theorem iterate_tablePass_length (p w n : Nat) (st : Nat × List Nat) :
    ((tablePass p w)^[n] st).2.length = 2 ^ n * st.2.length := by
  induction n generalizing st with
  | zero => simp
  | succ n ih => rw [Function.iterate_succ_apply, ih, tablePass_length, Nat.pow_succ]; ring

/-- The table has 256 entries (42_table.md R140). -/
theorem crcTable_length (p w : Nat) : (crcTable p w).length = 256 := by
  rw [crcTable, iterate_tablePass_length]; rfl

/-- One pass keeps the entries it finds (42_table.md R140). -/
theorem tablePass_getD_old (p w : Nat) (st : Nat × List Nat) (j : Nat) (hj : j < st.2.length) :
    (tablePass p w st).2.getD j 0 = st.2.getD j 0 := by
  simp [tablePass, List.getD_eq_getElem?_getD, List.getElem?_append_left hj]

/-- One pass writes entry i+j from entry j, where i is the number of entries it finds (42_table.md R140). -/
theorem tablePass_getD_new (p w : Nat) (st : Nat × List Nat) (j : Nat) (hj : j < st.2.length) :
    (tablePass p w st).2.getD (st.2.length + j) 0 =
      (tableAdvance p w st.1 ^^^ st.2.getD j 0) &&& mask w := by
  simp [tablePass, List.getD_eq_getElem?_getD, hj]

end Sys2Proof.Machine
end

