-- ==== Sys2Proof/Laws/Decode.lean ====
section
/-! SUPPORT. The opcode map selects at most one row for a word, and what decoding answers for a selected row, a reserved
bit and an unassigned opcode (30_encoding.md R80 to R84). -/

namespace Sys2Proof

theorem selects_iff (r : Row) (word : CmdWord) : r.selects word = true ↔ word &&& r.mask = r.pattern := by
  simp [Row.selects]

/-- The low byte of a word, which is its opcode field. -/
theorem opcField_eq (word : CmdWord) : opcField word = (word &&& 0xFF#32).toNat := by
  have h : (word &&& 0xFF#32).toNat = word.toNat % 2 ^ 8 := Nat.and_two_pow_sub_one_eq_mod word.toNat 8
  rw [h]
  simp [opcField]

/-- The width field as arithmetic on the word (30_encoding.md R75). -/
theorem widthField_eq (word : CmdWord) : widthField word = word.toNat / 2 ^ 8 % 2 ^ 7 := by
  simp [widthField, Nat.shiftRight_eq_div_pow]

/-- The index field as arithmetic on the word (30_encoding.md R75). -/
theorem indexField_eq (word : CmdWord) : indexField word = word.toNat / 2 ^ 8 % 2 ^ 8 := by
  simp [indexField, Nat.shiftRight_eq_div_pow]

/-- Every mask covers the opcode field (30_encoding.md R80). -/
theorem mask_covers_opcode : ∀ r ∈ opcodeTable, r.mask &&& 0xFF#32 = 0xFF#32 := by decide

/-- The opcode fields of the rows differ (30_encoding.md R80). -/
theorem opcode_determines_row :
    ∀ r ∈ opcodeTable, ∀ r' ∈ opcodeTable, opcField r.pattern = opcField r'.pattern → r = r' := by decide

/-- A selected row has the word's opcode. -/
theorem opcField_of_selects {r : Row} (hr : r ∈ opcodeTable) {word : CmdWord} (h : r.selects word = true) :
    opcField word = opcField r.pattern := by
  rw [selects_iff] at h
  rw [opcField_eq, opcField_eq, ← h, BitVec.and_assoc, mask_covers_opcode r hr]

/-- At most one row matches any word (30_encoding.md R80). -/
theorem selects_unique {r r' : Row} (hr : r ∈ opcodeTable) (hr' : r' ∈ opcodeTable) {word : CmdWord}
    (h : r.selects word = true) (h' : r'.selects word = true) : r = r' :=
  opcode_determines_row r hr r' hr' ((opcField_of_selects hr h).symm.trans (opcField_of_selects hr' h'))

/-- A word that selects a row decodes to that row's instruction (30_encoding.md R80). -/
theorem decode_of_selects {r : Row} (hr : r ∈ opcodeTable) {word : CmdWord} (h : r.selects word = true) :
    decode word = .ok (instrOf r.mnemonic word) := by
  unfold decode
  split
  · rename_i r' hfind
    have hr' : r' ∈ opcodeTable := List.mem_of_find?_eq_some hfind
    have hs' : r'.selects word = true := by simpa using List.find?_some hfind
    rw [selects_unique hr hr' h hs']
  · rename_i hnone
    exact absurd h (by simpa using List.find?_eq_none.mp hnone r hr)

/-- What decoding can answer: the instruction of the one selected row, or an error when no row is selected. -/
theorem decode_cases (word : CmdWord) :
    (∃ r ∈ opcodeTable, r.selects word = true ∧ decode word = .ok (instrOf r.mnemonic word)) ∨
    ((∀ r ∈ opcodeTable, r.selects word = false) ∧ decode word = .error (decodeError word)) := by
  by_cases h : ∃ r ∈ opcodeTable, r.selects word = true
  · obtain ⟨r, hr, hs⟩ := h
    exact .inl ⟨r, hr, hs, decode_of_selects hr hs⟩
  · have hall : ∀ r ∈ opcodeTable, r.selects word = false := fun r hr => by
      by_contra hne
      exact h ⟨r, hr, by simpa using hne⟩
    have hfind : opcodeTable.find? (fun r => r.selects word) = none :=
      List.find?_eq_none.mpr fun r hr => by simp [hall r hr]
    exact .inr ⟨hall, by rw [decode, hfind]⟩

/-- An assigned opcode with a bit of the mask wrong is rejected for its reserved bits (30_encoding.md R83). -/
theorem decode_reservedBits {r : Row} (hr : r ∈ opcodeTable) {word : CmdWord} (ho : opcField word = opcField r.pattern)
    (h : word &&& r.mask ≠ r.pattern) : decode word = .error .reservedBits := by
  obtain ⟨r', hr', hs', -⟩ | ⟨-, hdec⟩ := decode_cases word
  · have := opcode_determines_row r hr r' hr' (ho.symm.trans (opcField_of_selects hr' hs'))
    subst this
    exact absurd ((selects_iff _ _).mp hs') h
  · rw [hdec, decodeError, if_pos]
    exact List.any_eq_true.mpr ⟨r, hr, by simp [ho]⟩

end Sys2Proof
end

