-- ==== Sys2Proof/Laws/State.lean ====
section
/-! SUPPORT. What each operation on the state does to each field, as simp lemmas, so that no proof unfolds a record
update. -/

namespace Sys2Proof.Machine

section Advance
variable (s : State)

@[simp] theorem advance_cfg : s.advance.cfg = s.cfg := rfl
@[simp] theorem advance_w : s.advance.w = s.w := rfl
@[simp] theorem advance_ri : s.advance.ri = s.ri := rfl
@[simp] theorem advance_ro : s.advance.ro = s.ro := rfl
@[simp] theorem advance_poly : s.advance.poly = s.poly := rfl
@[simp] theorem advance_xin : s.advance.xin = s.xin := rfl
@[simp] theorem advance_xout : s.advance.xout = s.xout := rfl
@[simp] theorem advance_bsAcc : s.advance.bsAcc = s.bsAcc := rfl
@[simp] theorem advance_bsCnt : s.advance.bsCnt = s.bsCnt := rfl
@[simp] theorem advance_tdAcc : s.advance.tdAcc = s.tdAcc := rfl
@[simp] theorem advance_phase : s.advance.phase = s.phase := rfl
@[simp] theorem advance_inputs : s.advance.inputs = s.inputs.tail := rfl

end Advance

section BecomeIdle
variable (s : State)

@[simp] theorem becomeIdle_cfg : s.becomeIdle.cfg = s.cfg := rfl
@[simp] theorem becomeIdle_w : s.becomeIdle.w = s.w := rfl
@[simp] theorem becomeIdle_ri : s.becomeIdle.ri = s.ri := rfl
@[simp] theorem becomeIdle_ro : s.becomeIdle.ro = s.ro := rfl
@[simp] theorem becomeIdle_poly : s.becomeIdle.poly = s.poly := rfl
@[simp] theorem becomeIdle_xin : s.becomeIdle.xin = s.xin := rfl
@[simp] theorem becomeIdle_xout : s.becomeIdle.xout = s.xout := rfl
@[simp] theorem becomeIdle_bsAcc : s.becomeIdle.bsAcc = s.bsAcc := rfl
@[simp] theorem becomeIdle_bsCnt : s.becomeIdle.bsCnt = s.bsCnt := rfl
@[simp] theorem becomeIdle_tdAcc : s.becomeIdle.tdAcc = s.tdAcc := rfl
@[simp] theorem becomeIdle_phase : s.becomeIdle.phase = .idle := rfl
@[simp] theorem becomeIdle_inputs : s.becomeIdle.inputs = s.inputs := rfl

end BecomeIdle

section OfferResponse
variable (r : Response) (s : State)

@[simp] theorem offerResponse_cfg : (s.offerResponse r).cfg = s.cfg := rfl
@[simp] theorem offerResponse_w : (s.offerResponse r).w = s.w := rfl
@[simp] theorem offerResponse_ri : (s.offerResponse r).ri = s.ri := rfl
@[simp] theorem offerResponse_ro : (s.offerResponse r).ro = s.ro := rfl
@[simp] theorem offerResponse_poly : (s.offerResponse r).poly = s.poly := rfl
@[simp] theorem offerResponse_xin : (s.offerResponse r).xin = s.xin := rfl
@[simp] theorem offerResponse_xout : (s.offerResponse r).xout = s.xout := rfl
@[simp] theorem offerResponse_bsAcc : (s.offerResponse r).bsAcc = s.bsAcc := rfl
@[simp] theorem offerResponse_bsCnt : (s.offerResponse r).bsCnt = s.bsCnt := rfl
@[simp] theorem offerResponse_tdAcc : (s.offerResponse r).tdAcc = s.tdAcc := rfl
@[simp] theorem offerResponse_phase : (s.offerResponse r).phase = .responding r := rfl
@[simp] theorem offerResponse_inputs : (s.offerResponse r).inputs = s.inputs := rfl

end OfferResponse

section ResetEdge
variable (s : State)

@[simp] theorem resetEdge_cfg : s.resetEdge.cfg = s.cfg := rfl
@[simp] theorem resetEdge_w : s.resetEdge.w = 0 := rfl
@[simp] theorem resetEdge_ri : s.resetEdge.ri = false := rfl
@[simp] theorem resetEdge_ro : s.resetEdge.ro = false := rfl
@[simp] theorem resetEdge_poly : s.resetEdge.poly = 0 := rfl
@[simp] theorem resetEdge_xin : s.resetEdge.xin = 0 := rfl
@[simp] theorem resetEdge_xout : s.resetEdge.xout = 0 := rfl
@[simp] theorem resetEdge_bsAcc : s.resetEdge.bsAcc = 0 := rfl
@[simp] theorem resetEdge_bsCnt : s.resetEdge.bsCnt = 0 := rfl
@[simp] theorem resetEdge_tdAcc : s.resetEdge.tdAcc = 0 := rfl
@[simp] theorem resetEdge_phase : s.resetEdge.phase = .inReset := rfl
@[simp] theorem resetEdge_inputs : s.resetEdge.inputs = s.inputs := rfl

end ResetEdge

section Steps
variable (s : State)

@[simp] theorem bsStep_cfg (b : Bool) : (bsStep s b).cfg = s.cfg := rfl
@[simp] theorem bsStep_w (b : Bool) : (bsStep s b).w = s.w := rfl
@[simp] theorem bsStep_ri (b : Bool) : (bsStep s b).ri = s.ri := rfl
@[simp] theorem bsStep_ro (b : Bool) : (bsStep s b).ro = s.ro := rfl
@[simp] theorem bsStep_poly (b : Bool) : (bsStep s b).poly = s.poly := rfl
@[simp] theorem bsStep_xin (b : Bool) : (bsStep s b).xin = s.xin := rfl
@[simp] theorem bsStep_xout (b : Bool) : (bsStep s b).xout = s.xout := rfl
@[simp] theorem bsStep_tdAcc (b : Bool) : (bsStep s b).tdAcc = s.tdAcc := rfl
@[simp] theorem bsStep_phase (b : Bool) : (bsStep s b).phase = s.phase := rfl
@[simp] theorem bsStep_inputs (b : Bool) : (bsStep s b).inputs = s.inputs := rfl

@[simp] theorem tdStep_cfg (d : Nat) : (tdStep s d).cfg = s.cfg := rfl
@[simp] theorem tdStep_w (d : Nat) : (tdStep s d).w = s.w := rfl
@[simp] theorem tdStep_ri (d : Nat) : (tdStep s d).ri = s.ri := rfl
@[simp] theorem tdStep_ro (d : Nat) : (tdStep s d).ro = s.ro := rfl
@[simp] theorem tdStep_poly (d : Nat) : (tdStep s d).poly = s.poly := rfl
@[simp] theorem tdStep_xin (d : Nat) : (tdStep s d).xin = s.xin := rfl
@[simp] theorem tdStep_xout (d : Nat) : (tdStep s d).xout = s.xout := rfl
@[simp] theorem tdStep_bsAcc (d : Nat) : (tdStep s d).bsAcc = s.bsAcc := rfl
@[simp] theorem tdStep_bsCnt (d : Nat) : (tdStep s d).bsCnt = s.bsCnt := rfl
@[simp] theorem tdStep_phase (d : Nat) : (tdStep s d).phase = s.phase := rfl
@[simp] theorem tdStep_inputs (d : Nat) : (tdStep s d).inputs = s.inputs := rfl

/-- Feeding bits writes BS_ACC and BS_CNT and nothing else. -/
theorem bsFeed_frame (bits : List Bool) :
    bsFeed s bits = { s with bsAcc := (bsFeed s bits).bsAcc, bsCnt := (bsFeed s bits).bsCnt } := by
  unfold bsFeed
  induction bits generalizing s with
  | nil => rfl
  | cons b bs ih => rw [List.foldl_cons, ih]; rfl

@[simp] theorem bsFeed_cfg (bits : List Bool) : (bsFeed s bits).cfg = s.cfg := by rw [bsFeed_frame]
@[simp] theorem bsFeed_w (bits : List Bool) : (bsFeed s bits).w = s.w := by rw [bsFeed_frame]
@[simp] theorem bsFeed_ri (bits : List Bool) : (bsFeed s bits).ri = s.ri := by rw [bsFeed_frame]
@[simp] theorem bsFeed_ro (bits : List Bool) : (bsFeed s bits).ro = s.ro := by rw [bsFeed_frame]
@[simp] theorem bsFeed_poly (bits : List Bool) : (bsFeed s bits).poly = s.poly := by rw [bsFeed_frame]
@[simp] theorem bsFeed_xin (bits : List Bool) : (bsFeed s bits).xin = s.xin := by rw [bsFeed_frame]
@[simp] theorem bsFeed_xout (bits : List Bool) : (bsFeed s bits).xout = s.xout := by rw [bsFeed_frame]
@[simp] theorem bsFeed_tdAcc (bits : List Bool) : (bsFeed s bits).tdAcc = s.tdAcc := by rw [bsFeed_frame]
@[simp] theorem bsFeed_phase (bits : List Bool) : (bsFeed s bits).phase = s.phase := by rw [bsFeed_frame]
@[simp] theorem bsFeed_inputs (bits : List Bool) : (bsFeed s bits).inputs = s.inputs := by rw [bsFeed_frame]

@[simp] theorem bsFeed_width (bits : List Bool) : (bsFeed s bits).width = s.width := by
  simp [State.width]
@[simp] theorem bsFeed_wmax (bits : List Bool) : (bsFeed s bits).wmax = s.wmax := by
  simp [State.wmax]
@[simp] theorem bsFeed_widthMask (bits : List Bool) : (bsFeed s bits).widthMask = s.widthMask := by
  simp [State.widthMask, State.width]
@[simp] theorem bsFeed_maskedPoly (bits : List Bool) : (bsFeed s bits).maskedPoly = s.maskedPoly := by
  simp [State.maskedPoly, State.widthMask, State.width]
@[simp] theorem bsFeed_maskedXin (bits : List Bool) : (bsFeed s bits).maskedXin = s.maskedXin := by
  simp [State.maskedXin, State.widthMask, State.width]
@[simp] theorem bsFeed_maskedXout (bits : List Bool) : (bsFeed s bits).maskedXout = s.maskedXout := by
  simp [State.maskedXout, State.widthMask, State.width]

@[simp] theorem bsFeed_nil : bsFeed s [] = s := rfl
@[simp] theorem bsFeed_cons (b : Bool) (bs : List Bool) : bsFeed s (b :: bs) = bsFeed (bsStep s b) bs := rfl

theorem bsFeed_append (bs cs : List Bool) : bsFeed s (bs ++ cs) = bsFeed (bsFeed s bs) cs :=
  List.foldl_append

end Steps

section Derived
variable (s : State)

theorem wmax_eq : s.wmax = s.cfg.wmax := rfl
theorem width_eq : s.width = s.w.toNat := rfl

/-- WMAX is at least 8 (00_scope.md R5). -/
theorem wmax_ge : 8 ≤ s.wmax := s.cfg.wmax_ge
/-- WMAX is at most 127 (00_scope.md R5). -/
theorem wmax_le : s.wmax ≤ 127 := s.cfg.wmax_le
/-- W is a 7-bit register (10_state.md R20). -/
theorem width_lt : s.width < 128 := s.w.isLt

@[simp] theorem bsStep_maskedPoly (b : Bool) : (bsStep s b).maskedPoly = s.maskedPoly := rfl
@[simp] theorem bsStep_maskedXin (b : Bool) : (bsStep s b).maskedXin = s.maskedXin := rfl
@[simp] theorem bsStep_maskedXout (b : Bool) : (bsStep s b).maskedXout = s.maskedXout := rfl
@[simp] theorem bsStep_width (b : Bool) : (bsStep s b).width = s.width := rfl
@[simp] theorem bsStep_wmax (b : Bool) : (bsStep s b).wmax = s.wmax := rfl
@[simp] theorem tdStep_maskedPoly (d : Nat) : (tdStep s d).maskedPoly = s.maskedPoly := rfl
@[simp] theorem tdStep_maskedXin (d : Nat) : (tdStep s d).maskedXin = s.maskedXin := rfl
@[simp] theorem tdStep_maskedXout (d : Nat) : (tdStep s d).maskedXout = s.maskedXout := rfl
@[simp] theorem tdStep_width (d : Nat) : (tdStep s d).width = s.width := rfl
@[simp] theorem tdStep_wmax (d : Nat) : (tdStep s d).wmax = s.wmax := rfl

end Derived

end Sys2Proof.Machine
end

