-- ==== Sys2Proof/Laws/Ops.lean ====
section
/-! SUPPORT. One lemma for each shared operation of Machine/Ops.lean and Machine/Flags.lean that says what it can answer,
and the bounds of what the meanings compute. -/

namespace Sys2Proof.Machine

/-! ## Answers and checks -/

theorem respond_eq (status : Status) (v : Nat) (s : State) :
    respond status v s = .next { s with phase := .executing ⟨status, toValue v⟩ } := rfl

theorem raise_eq (e : Status) (s : State) : raise e s = .next { s with phase := .executing ⟨e, 0⟩ } := rfl

theorem legalWidthField_iff (s : State) (wf : Nat) : s.legalWidthField wf = true ↔ 1 ≤ wf ∧ wf ≤ s.wmax := by
  simp [State.legalWidthField]

theorem legalRegisterIndex_iff (idx : Nat) : legalRegisterIndex idx = true ↔ idx ≤ 7 := by
  simp [legalRegisterIndex]

theorem configured_iff (s : State) : s.configured = true ↔ s.width ≠ 0 := by
  simp [State.configured]

theorem tableWidth_iff (s : State) : s.tableWidth = true ↔ 8 ≤ s.width ∧ s.width % 8 = 0 := by
  simp [State.tableWidth]

/-- A width the table engine takes is a configured one. -/
theorem configured_of_tableWidth (s : State) (h : s.tableWidth = true) : s.configured = true := by
  rw [configured_iff]
  have := ((tableWidth_iff s).mp h).1
  omega

section Checks
variable (s : State) (run : Result)

theorem checkWidthField_eq (wf : Nat) :
    checkWidthField wf s run = if 1 ≤ wf ∧ wf ≤ s.wmax then run else raise .badArg s := by
  rw [checkWidthField]
  exact if_congr (legalWidthField_iff s wf) rfl rfl

theorem checkRegisterIndex_eq (idx : Nat) :
    checkRegisterIndex idx s run = if idx ≤ 7 then run else raise .badArg s := by
  rw [checkRegisterIndex]
  exact if_congr (legalRegisterIndex_iff idx) rfl rfl

theorem checkConfigured_eq : checkConfigured s run = if s.width ≠ 0 then run else raise .noCfg s := by
  rw [checkConfigured]
  exact if_congr (configured_iff s) rfl rfl

theorem checkTableEngine_eq :
    checkTableEngine s run =
      if s.width ≠ 0 then (if 8 ≤ s.width ∧ s.width % 8 = 0 then run else raise .badWidth s) else raise .noCfg s := by
  rw [checkTableEngine, checkConfigured_eq]
  exact if_congr Iff.rfl (if_congr (tableWidth_iff s) rfl rfl) rfl

end Checks

/-! ## Edges -/

/-- What an edge can make the handshake do, with the inputs and the phase that make it (20_memory.md R53 to R55). -/
theorem event_cases (s : State) :
    (s.event = .reset ∧ s.edge.rst = true) ∨
    (s.event = .leaveReset ∧ s.edge.rst = false ∧ s.phase = .inReset) ∨
    (s.event = .accept ∧ s.edge.rst = false ∧ s.phase = .idle ∧ s.edge.cmdValid = true) ∨
    (∃ r, s.event = .offer r ∧ s.edge.rst = false ∧ s.phase = .executing r ∧ s.edge.finish = true) ∨
    (∃ r, s.event = .handOver r ∧ s.edge.rst = false ∧ s.phase = .responding r ∧ s.edge.rspReady = true) ∨
    (s.event = .quiet ∧ s.edge.rst = false) := by
  unfold State.event
  cases hr : s.edge.rst
  · cases hp : s.phase with
    | inReset => simp
    | idle => cases hv : s.edge.cmdValid <;> simp
    | executing r => cases hf : s.edge.finish <;> simp
    | responding r => cases hy : s.edge.rspReady <;> simp
  · simp

/-! ## Bounds of computed values -/

theorem maskedPoly_lt (s : State) : s.maskedPoly < 2 ^ s.width := and_mask_lt _ _
theorem maskedXin_lt (s : State) : s.maskedXin < 2 ^ s.width := and_mask_lt _ _
theorem maskedXout_lt (s : State) : s.maskedXout < 2 ^ s.width := and_mask_lt _ _
theorem operand_lt (s : State) : s.operand < 2 ^ s.wmax := and_mask_lt _ _
theorem operandByte_lt (s : State) : s.operandByte < 2 ^ 8 := and_mask_lt _ _

theorem inputByte_lt (s : State) : s.inputByte < 2 ^ 8 := by
  rw [State.inputByte]
  split
  · exact reflect_lt _ 8
  · exact operandByte_lt s

theorem configImage_lt (s : State) : s.configImage < 2 ^ s.wmax := and_mask_lt _ _

theorem maskedPoly_eq_mod (s : State) : s.maskedPoly = s.poly.toNat % 2 ^ s.width := and_mask _ _
theorem maskedXin_eq_mod (s : State) : s.maskedXin = s.xin.toNat % 2 ^ s.width := and_mask _ _
theorem maskedXout_eq_mod (s : State) : s.maskedXout = s.xout.toNat % 2 ^ s.width := and_mask _ _
theorem operandByte_eq_mod (s : State) : s.operandByte = s.operand % 2 ^ 8 := and_mask _ _

/-- W = 0 as a register and as a number. -/
theorem w_eq_zero_iff (s : State) : s.w = 0 ↔ s.width = 0 :=
  ⟨fun h => by rw [State.width, h]; rfl, fun h => BitVec.eq_of_toNat_eq (by simpa [State.width] using h)⟩

/-- A W-bit value stays a W-bit value through the output transform (43_bitserial.md R163). -/
theorem finalize_lt (r : Nat) (s : State) (h : r < 2 ^ s.width) : finalize r s < 2 ^ s.width := by
  rw [finalize]
  refine Nat.xor_lt_two_pow ?_ (maskedXout_lt s)
  split
  · exact reflect_lt _ _
  · exact h

/-- What one bit step leaves in BS_ACC, as a number (43_bitserial.md R161). -/
theorem bsStep_bsAcc_toNat (s : State) (b : Bool) :
    (bsStep s b).bsAcc.toNat =
      if s.bsCnt.toNat + 1 = s.width then shiftIn s.maskedPoly s.width s.bsAcc.toNat b ^^^ s.maskedXin
      else shiftIn s.maskedPoly s.width s.bsAcc.toNat b := by
  have hw : s.width ≤ 127 := Nat.lt_succ_iff.mp (width_lt s)
  refine toValue_toNat_of_lt hw ?_
  split
  · exact Nat.xor_lt_two_pow (shiftIn_lt _ _ _ _) (maskedXin_lt s)
  · exact shiftIn_lt _ _ _ _

theorem bsStep_bsAcc_lt (s : State) (b : Bool) : (bsStep s b).bsAcc.toNat < 2 ^ s.width := by
  rw [bsStep_bsAcc_toNat]
  split
  · exact Nat.xor_lt_two_pow (shiftIn_lt _ _ _ _) (maskedXin_lt s)
  · exact shiftIn_lt _ _ _ _

/-- What one bit step leaves in BS_CNT, as a number (10_state.md R28). -/
theorem bsStep_bsCnt_toNat (s : State) (b : Bool) :
    (bsStep s b).bsCnt.toNat = min (s.bsCnt.toNat + 1) s.wmax := by
  change (BitVec.ofNat 7 (min (s.bsCnt.toNat + 1) s.wmax)).toNat = _
  rw [BitVec.toNat_ofNat, Nat.mod_eq_of_lt]
  have := wmax_le s
  omega

/-- What one table step leaves in TD_ACC, as a number (44_tabledriven.md R191). -/
theorem tdStep_tdAcc_toNat (s : State) (d : Nat) :
    (tdStep s d).tdAcc.toNat =
      ((s.tdAcc.toNat <<< 8) ^^^
        tableEntry s.maskedPoly s.width (((s.tdAcc.toNat >>> (s.width - 8)) ^^^ d) &&& 0xFF)) &&& mask s.width :=
  toValue_toNat_of_lt (Nat.lt_succ_iff.mp (width_lt s)) (and_mask_lt _ _)

theorem tdStep_tdAcc_lt (s : State) (d : Nat) : (tdStep s d).tdAcc.toNat < 2 ^ s.width := by
  rw [tdStep_tdAcc_toNat]
  exact and_mask_lt _ _

/-- With W at least 1 the augmentation ends below 2^W (43_bitserial.md R162). -/
theorem flush_lt (s : State) (h : s.width ≠ 0) : flush s < 2 ^ s.width := by
  unfold flush
  generalize hn : s.width = n at *
  cases n with
  | zero => exact absurd rfl h
  | succ n => rw [Function.iterate_succ_apply']; exact shiftIn_lt _ _ _ _

/-- Every bit of a message fed in keeps the bounds of the engine's two registers. -/
theorem bsFeed_bounds (s : State) (bits : List Bool) (hw : s.width ≤ s.wmax)
    (ha : s.bsAcc.toNat < 2 ^ s.wmax) (hc : s.bsCnt.toNat ≤ s.wmax) :
    (bsFeed s bits).bsAcc.toNat < 2 ^ s.wmax ∧ (bsFeed s bits).bsCnt.toNat ≤ s.wmax := by
  induction bits generalizing s with
  | nil => exact ⟨ha, hc⟩
  | cons b bs ih =>
    refine ih (bsStep s b) hw ?_ ?_
    · exact (bsStep_bsAcc_lt s b).trans_le (Nat.pow_le_pow_right (by decide) hw)
    · rw [bsStep_bsCnt_toNat]; exact Nat.min_le_right _ _

end Sys2Proof.Machine
end

