-- ==== Sys2Proof/Laws/PerInstr.lean ====
section
/-! SUPPORT. One law over the instruction as syntax, for every constructor: a well-formed instruction's word has the fixed bits
of its row of 30_encoding.md R80. -/

namespace Sys2Proof.Laws.EncodeHasFixedBits

/-- The row of 30_encoding.md R80 for an instruction: its pattern and its mask. -/
def rowOf : Instr → CmdWord × CmdWord
  | .nop => (0x00#32, maskN)
  | .cfg _ _ _ => (0x01#32, maskC)
  | .setxin => (0x02#32, maskN)
  | .setxout => (0x03#32, maskN)
  | .rdreg _ => (0x04#32, maskI)
  | .bsInit => (0x10#32, maskN)
  | .bsByte => (0x11#32, maskN)
  | .bsBit => (0x12#32, maskN)
  | .bsFinal => (0x13#32, maskN)
  | .tdInit => (0x20#32, maskN)
  | .tdByte => (0x21#32, maskN)
  | .tdFinal => (0x22#32, maskN)
  | .tblRd _ => (0x23#32, maskI)
  | .refl _ => (0x30#32, maskR)
  | .refl8 => (0x31#32, maskN)

/-- The word of a well-formed instruction agrees with its row on every fixed bit. -/
def Statement (i : Instr) : Prop := i.WellFormed → encode i &&& (rowOf i).2 = (rowOf i).1

theorem nop : Statement .nop := fun _ => by decide
theorem cfg (wf : Nat) (rif rof : Bool) : Statement (.cfg wf rif rof) := fun h => by
  have hall : ∀ (f : Fin 128) (a b : Bool), encode (.cfg f.val a b) &&& maskC = 0x01#32 := by decide
  exact hall ⟨wf, of_decide_eq_true h⟩ rif rof
theorem setxin : Statement .setxin := fun _ => by decide
theorem setxout : Statement .setxout := fun _ => by decide
theorem rdreg (idx : Nat) : Statement (.rdreg idx) := fun h => by
  have hall : ∀ hi lo : Fin 16, encode (.rdreg (16 * hi.val + lo.val)) &&& maskI = 0x04#32 := by decide
  have hidx : idx < 256 := of_decide_eq_true h
  have := hall ⟨idx / 16, by omega⟩ ⟨idx % 16, by omega⟩
  rwa [Nat.div_add_mod] at this
theorem bsInit : Statement .bsInit := fun _ => by decide
theorem bsByte : Statement .bsByte := fun _ => by decide
theorem bsBit : Statement .bsBit := fun _ => by decide
theorem bsFinal : Statement .bsFinal := fun _ => by decide
theorem tdInit : Statement .tdInit := fun _ => by decide
theorem tdByte : Statement .tdByte := fun _ => by decide
theorem tdFinal : Statement .tdFinal := fun _ => by decide
theorem tblRd (idx : Nat) : Statement (.tblRd idx) := fun h => by
  have hall : ∀ hi lo : Fin 16, encode (.tblRd (16 * hi.val + lo.val)) &&& maskI = 0x23#32 := by decide
  have hidx : idx < 256 := of_decide_eq_true h
  have := hall ⟨idx / 16, by omega⟩ ⟨idx % 16, by omega⟩
  rwa [Nat.div_add_mod] at this
theorem refl (wf : Nat) : Statement (.refl wf) := fun h => by
  have hall : ∀ f : Fin 128, encode (.refl f.val) &&& maskR = 0x30#32 := by decide
  exact hall ⟨wf, of_decide_eq_true h⟩
theorem refl8 : Statement .refl8 := fun _ => by decide

end Sys2Proof.Laws.EncodeHasFixedBits
end

