-- ==== Sys2Proof/Laws/Step.lean ====
section
/-! SUPPORT. Everything a command and an edge can do, said once: the proofs about steps cite these instead of unfolding the
meanings. -/

namespace Sys2Proof.Machine

/-- What a command does to the registers before it answers: nothing, or the writes of its own rule. -/
inductive Effect (s : State) : Instr → State → Prop where
  | none (i : Instr) : Effect s i s
  | cfg (wf : Nat) (rif rof : Bool) (hlo : 1 ≤ wf) (hhi : wf ≤ s.wmax) :
      Effect s (.cfg wf rif rof)
        { s with w := BitVec.ofNat 7 wf, ri := rif, ro := rof, poly := toValue s.operand }
  | setxin : Effect s .setxin { s with xin := toValue s.operand }
  | setxout : Effect s .setxout { s with xout := toValue s.operand }
  | bsInit (h : s.width ≠ 0) : Effect s .bsInit { s with bsAcc := 0, bsCnt := 0 }
  | bsByte (h : s.width ≠ 0) : Effect s .bsByte (bsFeed s (byteBits s.inputByte))
  | bsBit (h : s.width ≠ 0) : Effect s .bsBit (bsFeed s [s.operandBit])
  | tdInit (h : 8 ≤ s.width ∧ s.width % 8 = 0) : Effect s .tdInit { s with tdAcc := toValue s.maskedXin }
  | tdByte (h : 8 ≤ s.width ∧ s.width % 8 = 0) : Effect s .tdByte (tdStep s s.inputByte)

/-- What a command can answer: its effect and a response; a response that is not `OK` has data 0 and no effect. -/
def Answered (i : Instr) (s : State) : Prop :=
  ∃ t r, exec i s = .next { t with phase := .executing r } ∧ Effect s i t ∧ (r.status ≠ .ok → r.data = 0 ∧ t = s)

section
variable {i : Instr} {s : State}

theorem answered_of_raise {e : Status} (h : exec i s = raise e s) : Answered i s :=
  ⟨s, ⟨e, 0⟩, h, .none i, fun _ => ⟨rfl, rfl⟩⟩

theorem answered_of_respond {v : Nat} {t : State} (ht : Effect s i t) (h : exec i s = respond .ok v t) : Answered i s :=
  ⟨t, ⟨.ok, toValue v⟩, h, ht, fun hne => absurd rfl hne⟩

/-- A command behind check 2, check 3 or checks 3 and 4 answers what it answers when they pass, and the error otherwise. -/
theorem answered_of_ite {c : Prop} [Decidable c] {e : Status} {run : Result}
    (heq : exec i s = if c then run else raise e s) (h : c → exec i s = run → Answered i s) : Answered i s := by
  by_cases hc : c
  · exact h hc (by rw [heq, if_pos hc])
  · exact answered_of_raise (by rw [heq, if_neg hc])

end

/-- Every command answers, with one of the effects of `Effect`. -/
theorem exec_answers (i : Instr) (s : State) : Answered i s := by
  cases i with
  | nop => exact answered_of_respond (.none _) rfl
  | setxin => exact answered_of_respond .setxin rfl
  | setxout => exact answered_of_respond .setxout rfl
  | refl8 => exact answered_of_respond (.none _) rfl
  | cfg wf rif rof =>
    exact answered_of_ite (checkWidthField_eq s _ wf) fun h heq => answered_of_respond (.cfg wf rif rof h.1 h.2) heq
  | refl wf => exact answered_of_ite (checkWidthField_eq s _ wf) fun _ heq => answered_of_respond (.none _) heq
  | rdreg idx =>
    refine answered_of_ite (checkRegisterIndex_eq s _ idx) fun _ heq => ?_
    cases hv : s.readRegister idx with
    | none => rw [hv] at heq; exact answered_of_raise heq
    | some v => rw [hv] at heq; exact answered_of_respond (.none _) heq
  | bsInit => exact answered_of_ite (checkConfigured_eq s _) fun h heq => answered_of_respond (.bsInit h) heq
  | bsByte => exact answered_of_ite (checkConfigured_eq s _) fun h heq => answered_of_respond (.bsByte h) heq
  | bsBit => exact answered_of_ite (checkConfigured_eq s _) fun h heq => answered_of_respond (.bsBit h) heq
  | bsFinal => exact answered_of_ite (checkConfigured_eq s _) fun _ heq => answered_of_respond (.none _) heq
  | tblRd idx => exact answered_of_ite (checkConfigured_eq s _) fun _ heq => answered_of_respond (.none _) heq
  | tdInit =>
    refine answered_of_ite (checkTableEngine_eq s _) fun _ heq => ?_
    exact answered_of_ite heq fun h heq' => answered_of_respond (.tdInit h) heq'
  | tdByte =>
    refine answered_of_ite (checkTableEngine_eq s _) fun _ heq => ?_
    exact answered_of_ite heq fun h heq' => answered_of_respond (.tdByte h) heq'
  | tdFinal =>
    refine answered_of_ite (checkTableEngine_eq s _) fun _ heq => ?_
    exact answered_of_ite heq fun _ heq' => answered_of_respond (.none _) heq'

/-- No effect touches WMAX or the coming edges. -/
theorem Effect.interface {s t : State} {i : Instr} (h : Effect s i t) : t.cfg = s.cfg ∧ t.inputs = s.inputs := by
  cases h with
  | bsByte => exact ⟨bsFeed_cfg .., bsFeed_inputs ..⟩
  | bsBit => exact ⟨bsFeed_cfg .., bsFeed_inputs ..⟩
  | _ => exact ⟨rfl, rfl⟩

/-- An accepted word that decodes runs its instruction; one that does not is answered `ILLEGAL`. -/
theorem acceptCommand_cases (s : State) :
    (∃ i, decode s.edge.cmdWord = .ok i ∧ acceptCommand s = exec i s) ∨
    (∃ e, decode s.edge.cmdWord = .error e ∧ acceptCommand s = execIllegal s) := by
  unfold acceptCommand
  cases decode s.edge.cmdWord with
  | ok i => exact .inl ⟨i, rfl, rfl⟩
  | error e => exact .inr ⟨e, rfl, rfl⟩

/-- What a step does, by the event of its edge. -/
theorem step_by_event (s : State) :
    (s.event = .reset → step s = .next s.resetEdge.advance) ∧
    (s.event = .leaveReset → step s = .next s.becomeIdle.advance) ∧
    (s.event = .accept → step s = afterEdge (acceptCommand s)) ∧
    (∀ r, s.event = .offer r → step s = .next (s.offerResponse r).advance) ∧
    (∀ r, s.event = .handOver r → step s = .next s.becomeIdle.advance) ∧
    (s.event = .quiet → step s = .next s.advance) := by
  refine ⟨fun h => ?_, fun h => ?_, fun h => ?_, fun r h => ?_, fun r h => ?_, fun h => ?_⟩ <;> rw [step, h] <;> rfl

end Sys2Proof.Machine
end

