-- ==== Sys2Proof/Tests/Slice0.lean ====
section
/-! SUPPORT. The model's own tests: well-formedness, decoding of words written out from the formats of 30_encoding.md, one step or
meaning of every command against the vectors of 95_test_vectors.md, and for every claim with hypotheses a concrete
state that meets them. -/

namespace Sys2Proof.Tests.Slice0

open Sys2Proof.Machine

/-! ## Well-formedness: each check refuses an ill-formed term (30_encoding.md R75, R88) -/

theorem test_cfg_width_128_is_ill_formed : ¬(Instr.cfg 128 false false).WellFormed := by decide
theorem test_refl_width_128_is_ill_formed : ¬(Instr.refl 128).WellFormed := by decide
theorem test_rdreg_index_256_is_ill_formed : ¬(Instr.rdreg 256).WellFormed := by decide
theorem test_tblRd_index_256_is_ill_formed : ¬(Instr.tblRd 256).WellFormed := by decide
theorem test_cfg_width_127_is_well_formed : (Instr.cfg 127 true false).WellFormed := by decide
theorem test_assembler_refuses_wide_data : assemble Config.reference .setxin (2 ^ 64) = none := by decide
/-- 95_test_vectors.md, the CRC-64/XZ row: XIN = 0xFFFFFFFFFFFFFFFF at WMAX = 64. -/
theorem test_assembler_accepts_full_width_data :
    assemble Config.reference .setxin 0xFFFFFFFFFFFFFFFF = some ⟨0x00000002#32, 0xFFFFFFFFFFFFFFFF⟩ := by decide
theorem test_assembler_refuses_ill_formed : assemble Config.reference (.refl 128) 1 = none := by decide

/-! ## Decoding: words written out from the formats (30_encoding.md R71 to R74, R80, R90; 95_test_vectors.md part 2) -/

theorem test_decode_nop : decode 0b00000000000000000000000000000000#32 = .ok .nop := by decide
theorem test_decode_cfg : decode 0b00000000000000110010000000000001#32 = .ok (.cfg 32 true true) := by decide
theorem test_decode_cfg_rif_only : decode 0b00000000000000010111111100000001#32 = .ok (.cfg 127 true false) := by decide
theorem test_decode_setxin : decode 0b00000000000000000000000000000010#32 = .ok .setxin := by decide
theorem test_decode_setxout : decode 0b00000000000000000000000000000011#32 = .ok .setxout := by decide
theorem test_decode_rdreg : decode 0b00000000000000000000011000000100#32 = .ok (.rdreg 6) := by decide
theorem test_decode_rdreg_255 : decode 0b00000000000000001111111100000100#32 = .ok (.rdreg 255) := by decide
theorem test_decode_bsInit : decode 0b00000000000000000000000000010000#32 = .ok .bsInit := by decide
theorem test_decode_bsByte : decode 0b00000000000000000000000000010001#32 = .ok .bsByte := by decide
theorem test_decode_bsBit : decode 0b00000000000000000000000000010010#32 = .ok .bsBit := by decide
theorem test_decode_bsFinal : decode 0b00000000000000000000000000010011#32 = .ok .bsFinal := by decide
theorem test_decode_tdInit : decode 0b00000000000000000000000000100000#32 = .ok .tdInit := by decide
theorem test_decode_tdByte : decode 0b00000000000000000000000000100001#32 = .ok .tdByte := by decide
theorem test_decode_tdFinal : decode 0b00000000000000000000000000100010#32 = .ok .tdFinal := by decide
theorem test_decode_tblRd : decode 0b00000000000000001111111100100011#32 = .ok (.tblRd 255) := by decide
theorem test_decode_refl : decode 0b00000000000000000010000000110000#32 = .ok (.refl 32) := by decide
theorem test_decode_refl8 : decode 0b00000000000000000000000000110001#32 = .ok .refl8 := by decide
theorem test_decode_cfg_bit15 : decode 0x00008001#32 = .error .reservedBits := by decide
theorem test_decode_cfg_bit20 : decode 0x00100001#32 = .error .reservedBits := by decide
theorem test_decode_opcode_05 : decode 0x00000005#32 = .error .unassignedOpcode := by decide
theorem test_decode_opcode_FF : decode 0x000000FF#32 = .error .unassignedOpcode := by decide
theorem test_decode_tdInit_bit8 : decode 0x00000120#32 = .error .reservedBits := by decide
theorem test_decode_refl_bit15 : decode 0x00008030#32 = .error .reservedBits := by decide
theorem test_encode_cfg : encode (.cfg 32 true true) = 0x00032001#32 := by decide
theorem test_encode_tblRd : encode (.tblRd 255) = 0x0000FF23#32 := by decide
theorem test_decodeTableWord : decodeTableWord 32 0x00002030 = some (.refl 32) := by decide

/-! ## Single commands (95_test_vectors.md part 3) -/

/-- An idle block at the reference WMAX, configured with the width and the polynomial, whose coming edge drives the word and the
operand. -/
def block (width poly word data : Nat) : State :=
  { State.reset with
    w := BitVec.ofNat 7 width
    poly := toValue poly
    phase := .idle
    inputs := [Edge.offering ⟨BitVec.ofNat 32 word, toValue data⟩] }

/-- The status code and the data of a result, if it is a next state with a response in flight. -/
def answer : Result → Option (Nat × Nat)
  | .next t => t.inFlight.map fun r => (r.status.code.toNat, r.data.toNat)
  | .fault _ => none
  | .refused _ => none

/-- One register of a result that is a next state. -/
def regAfter (r : Reg) : Result → Option Nat
  | .next t => some (t.reg r)
  | .fault _ => none
  | .refused _ => none

theorem test_nop : answer (step (block 0 0 0x00 7)) = some (0, 0) := by decide
theorem test_cfg_stores_raw_polynomial :
    regAfter .poly (step (block 0 0 0x00032001 0x104C11DB7)) = some 0x104C11DB7 := by decide
theorem test_cfg_wider_than_wmax : answer (step (block 8 7 0x00004101 7)) = some (2, 0) := by decide
theorem test_setxin_unconfigured : regAfter .xin (step (block 0 0 0x02 5)) = some 5 := by decide
theorem test_setxout : regAfter .xout (step (block 0 0 0x03 0xFFFF)) = some 0xFFFF := by decide
theorem test_rdreg_image :
    answer (step { block 32 0 0x04 0 with ri := true, ro := true }) = some (0, 0x32000) := by decide
theorem test_rdreg_wmax : answer (step (block 0 0 0x0704 0)) = some (0, 0x40) := by decide
theorem test_bsInit : regAfter .bsCnt (step { block 8 7 0x10 0 with bsCnt := 64 }) = some 0 := by decide
theorem test_bsInit_unconfigured : answer (step (block 0 0 0x10 0)) = some (3, 0) := by decide
theorem test_bsByte_second_byte :
    regAfter .bsAcc (step { block 8 7 0x11 0x32 with bsAcc := 0x31, bsCnt := 8 }) = some 0xA5 := by decide
theorem test_bsByte_xor_in_at_bit_8 :
    regAfter .bsAcc (step { block 8 7 0x11 0x00 with xin := 0xFF }) = some 0xFF := by decide
theorem test_bsBit_width_1 : regAfter .bsAcc (step (block 1 1 0x12 1)) = some 1 := by decide
theorem test_bsFinal_crc8 : answer (step { block 8 7 0x13 0 with bsAcc := 0xFE }) = some (0, 0xF4) := by decide
theorem test_bsFinal_crc5_usb :
    answer (step { block 5 0x05 0x13 0 with ro := true, xout := 0x1F, bsAcc := 0x1F }) = some (0, 0x19) := by decide
theorem test_tdInit : regAfter .tdAcc (step { block 16 0x1021 0x20 0 with xin := 0xFFFF }) = some 0xFFFF := by decide
theorem test_tdInit_width_12 : answer (step (block 12 0x80F 0x20 0)) = some (4, 0) := by decide
theorem test_tdByte : regAfter .tdAcc (step (block 8 7 0x21 0x31)) = some 0x97 := by decide
theorem test_tdByte_crc16 :
    regAfter .tdAcc (step { block 16 0x1021 0x21 0x31 with tdAcc := 0xFFFF }) = some 0xC782 := by decide
theorem test_tdFinal_after_lower_width :
    answer (step { block 8 7 0x22 0 with tdAcc := 0xC782 }) = some (0, 0x82) := by decide
theorem test_tdFinal_crc32 :
    answer (step { block 32 0x04C11DB7 0x22 0 with ro := true, xout := 0xFFFFFFFF, tdAcc := 0x9B63D02C })
      = some (0, 0xCBF43926) := by decide
theorem test_tblRd_255 : answer (step (block 32 0x04C11DB7 0xFF23 0)) = some (0, 0xB1F740B4) := by decide
theorem test_tblRd_width_5 : answer (step (block 5 0x13 0x3123 0)) = some (0, 0x15) := by decide
theorem test_refl_32 : answer (step (block 0 0 0x2030 0x04C11DB7)) = some (0, 0xEDB88320) := by decide
theorem test_refl_8_ignores_high_bits : answer (step (block 0 0 0x0830 0x1FF)) = some (0, 0xFF) := by decide
theorem test_refl8_ignores_high_bits : answer (step (block 0 0 0x31 0x131)) = some (0, 0x8C) := by decide
theorem test_illegal_before_noCfg : answer (step (block 0 0 0x0120 0)) = some (1, 0) := by decide
theorem test_noCfg_before_badWidth : answer (step (block 0 0 0x20 0)) = some (3, 0) := by decide
theorem test_illegal_before_badArg : answer (step (block 0 0 0x00100001 7)) = some (1, 0) := by decide
theorem test_withFetchWord_runs_first :
    answer (step (State.reset.withFetchWord 32 0x0704)) = some (0, 64) := by decide

theorem test_first_edge_leaves_reset :
    (match step State.reset with | .next t => t.cmdReady | .fault _ => false | .refused _ => false) = true := by decide

/-! ## The host's side (95_test_vectors.md part 3.7) -/

theorem test_koopman_crc32 : koopman 0x82608EDB = (32, 0x04C11DB7) := by decide
theorem test_koopman_2 : koopman 0x2 = (2, 0x1) := by decide
theorem test_koopman_0_refused : hostKoopman Config.reference 0 = none := by decide
theorem test_cfg_koop : assembleCfgKoop Config.reference 0x83 false false = some ⟨0x00000801#32, 7⟩ := by decide
theorem test_lut_container_17 : lutContainerBits 17 = some 32 ∧ lutHexDigits 17 = 5 := by decide
theorem test_text_bytes : textBytes "1 9" = some [0x31, 0x20, 0x39] := by decide
theorem test_td_resume :
    assembleTdResume Config.reference 0xC2 = some [⟨0x00000002#32, 0xC2⟩, ⟨0x00000020#32, 0⟩] := by decide
theorem test_lut_container_65 : lutContainerBits 65 = none := by decide

/-! ## Witnesses: for each claim with hypotheses, a state or operands that meet them, at the ends of the ranges -/

/-- For every row of the opcode map: an accepted word with the row's opcode and a reserved bit set (bit 20 is reserved in every
format). -/
theorem witness_EncodedAs_reserved : ∀ row ∈ opcodeTable,
    Accepts (block 8 7 (row.pattern ||| 0x00100000#32).toNat 0) (row.pattern ||| 0x00100000#32) ∧
    (row.pattern ||| 0x00100000#32) &&& 0xFF#32 = row.pattern &&& 0xFF#32 ∧
    (row.pattern ||| 0x00100000#32) &&& row.mask ≠ row.pattern := by decide
/-- For every row: a word that selects it. -/
theorem witness_EncodedAs_selecting : ∀ row ∈ opcodeTable, row.pattern &&& row.mask = row.pattern := by decide
theorem witness_cfg_word : 0x00032001#32 &&& 0xFFFC80FF#32 = 0x01#32 := by decide
theorem witness_rdreg_word : 0x0604#32 &&& 0xFFFF00FF#32 = 0x04#32 := by decide
theorem witness_refl_word : 0x2030#32 &&& 0xFFFF80FF#32 = 0x30#32 := by decide
theorem witness_CfgWritesWidthFlagsAndRawPolynomial :
    (1 ≤ 1 ∧ 1 ≤ (block 0 0 1 0).wmax) ∧ (1 ≤ 64 ∧ 64 ≤ (block 0 0 1 0).wmax) ∧ (block 0 0 1 0).wmax < 65 := by decide
theorem witness_RdregReturnsTheIndexedRegister : 7 < 8 := by decide
theorem witness_configured : (block 1 1 0x10 0).w ≠ 0 ∧ (block 64 1 0x10 0).w ≠ 0 := by decide
theorem witness_unconfigured : (block 0 0 0x10 0).w = 0 := by decide
theorem witness_BsByte_operand :
    0x8C = (if ({ block 8 7 0x11 0x131 with ri := true } : State).ri
      then reflect8 (({ block 8 7 0x11 0x131 with ri := true } : State).operand % 2 ^ 8)
      else ({ block 8 7 0x11 0x131 with ri := true } : State).operand % 2 ^ 8) := by decide
theorem witness_table_width :
    (8 ≤ (block 8 7 0x20 0).width ∧ (block 8 7 0x20 0).width % 8 = 0) ∧
    (8 ≤ (block 64 7 0x20 0).width ∧ (block 64 7 0x20 0).width % 8 = 0) := by decide
theorem witness_refused_table_width :
    ((block 7 7 0x20 0).w ≠ 0 ∧ (block 7 7 0x20 0).width < 8) ∧
    ((block 12 7 0x20 0).w ≠ 0 ∧ (block 12 7 0x20 0).width % 8 ≠ 0) := by decide
theorem witness_TblRdReturnsTheTableEntry :
    255 < 256 ∧ (block 8 0x700 0x23 0).w ≠ 0 ∧ (block 8 0x700 0x23 0).poly.toNat % 2 ^ (block 8 0x700 0x23 0).width = 0 := by
  decide
theorem witness_AcceptingEdgeRunsTheDecodedInstruction :
    Accepts (block 8 7 0x13 0) 0x13#32 ∧ decode 0x13#32 = .ok .bsFinal := by decide
theorem witness_WordsOfNoRowAreAnsweredIllegal :
    Accepts (block 8 7 0x05 0) 0x05#32 ∧ (5 : Nat) = (0x05#32).toNat % 2 ^ 8 ∧
    Accepts (block 8 7 0x32 0) 0x32#32 ∧ (0x32 : Nat) = (0x32#32).toNat % 2 ^ 8 ∧
    ∀ row ∈ opcodeTable, 0x05#32 &&& row.mask ≠ row.pattern := by decide
theorem witness_WordsOfNoRow_assigned_opcode :
    ∃ row ∈ opcodeTable, 0x0120#32 &&& 0xFF#32 = row.pattern &&& 0xFF#32 ∧ 0x0120#32 &&& row.mask ≠ row.pattern := by decide
theorem witness_ArgumentBad : ArgumentBad (block 8 7 1 0) (.cfg 0 false false) ∧ ArgumentBad (block 8 7 1 0) (.refl 65) ∧
    ArgumentBad (block 8 7 1 0) (.rdreg 8) :=
  ⟨by unfold ArgumentBad; decide, by unfold ArgumentBad; decide, by unfold ArgumentBad; decide⟩
theorem witness_argument_good :
    ¬ArgumentBad (block 8 7 1 0) (.cfg 64 false false) ∧ ¬ArgumentBad (block 8 7 1 0) (.rdreg 7) ∧
    ¬ArgumentBad (block 8 7 1 0) .tdInit :=
  ⟨by unfold ArgumentBad; decide, by unfold ArgumentBad; decide, id⟩
theorem witness_checks_pass :
    needsConfiguration .tdByte = true ∧ needsTableWidth .tdByte = true ∧ (block 8 7 0x21 0).w ≠ 0 ∧
    8 ≤ (block 8 7 0x21 0).width ∧ (block 8 7 0x21 0).width % 8 = 0 := by decide
theorem witness_FirstFailingCheckIsReported :
    Accepts (block 0 0 0x20 0) 0x20#32 ∧ decode 0x20#32 = .ok .tdInit ∧ (block 0 0 0x20 0).w = 0 ∧
    Accepts (block 12 0 0x20 0) 0x20#32 ∧ (block 12 0 0x20 0).w ≠ 0 := by decide
theorem witness_FirstFailing_badArg :
    Accepts (block 8 7 0x4101 0) 0x4101#32 ∧ decode 0x4101#32 = .ok (.cfg 65 false false) ∧
    64 < 65 ∧ (block 8 7 0x4101 0).wmax = 64 := by decide
theorem witness_FirstFailing_illegal :
    Accepts (block 8 7 0x05 0) 0x05#32 ∧ decode 0x05#32 = .error .unassignedOpcode := by decide
theorem witness_ErrorsWriteNothingAndAnswerZero :
    Accepts (block 8 7 0x0804 0) 0x0804#32 ∧ answer (step (block 8 7 0x0804 0)) = some (2, 0) := by decide
theorem witness_StepKeepsRegistersWithinWidths :
    (block 64 0xFFFFFFFFFFFFFFFF 0x11 0xFF).WithinWidths ∧ answer (step (block 64 0xFFFFFFFFFFFFFFFF 0x11 0xFF)) = some (0, 0) := by
  decide
theorem witness_CommandsReadAndWriteOnlyTheirRegisters :
    answer (exec .bsFinal (block 8 7 0x13 0)) = some (0, 0) ∧
    (∀ r ∈ registersRead .bsFinal, ({ block 8 7 0x13 0 with tdAcc := 5 } : State).reg r = (block 8 7 0x13 0).reg r) := by decide
theorem witness_UnreadOperandBitsHaveNoEffect :
    (0x131 : Value).toNat &&& operandBitsRead (block 8 7 0x31 0) .refl8
      = (0x31 : Value).toNat &&& operandBitsRead (block 8 7 0x31 0) .refl8 := by decide
theorem witness_OnlyCfgAndResetChangeTheWidth :
    (block 8 7 0x1001 3).edge.rst = false ∧ (block 8 7 0x1001 3).w ≠ 0 ∧
    regAfter .w (step (block 8 7 0x1001 3)) = some 16 := by decide
theorem witness_RepeatedCommands :
    Instr.tdInit ∉ [Instr.bsByte, .bsBit, .tdByte] ∧ registersWritten .tdFinal = [] ∧
    answer (exec .tdFinal (block 8 7 0x22 0)) = some (0, 0) := by decide
theorem witness_ConfigurationImageIsACfgWord :
    (block 64 7 4 0).WithinWidths ∧ 18 ≤ (block 64 7 4 0).wmax ∧ (block 64 7 4 0).w ≠ 0 := by decide
theorem witness_ConfigurationImage_narrowest :
    ({ State.resetOf ⟨18, by decide, by decide⟩ with w := 18 } : State).WithinWidths := by decide
theorem witness_ThreeStepByteReversalIsReflect8 :
    255 < 256 ∧ 255 = ((255 &&& 0x55) <<< 1) ||| ((255 >>> 1) &&& 0x55) ∧
    255 = ((255 &&& 0x33) <<< 2) ||| ((255 >>> 2) &&& 0x33) := by decide
theorem witness_TableLaws :
    1 ≤ 1 ∧ 1 < 2 ^ 1 ∧ 255 < 256 ∧ 7 < 8 ∧
    ∃ g : Nat → Nat, ∀ c, g c = ((2 * c) ^^^ (if c.testBit (1 - 1) then 1 else 0)) % 2 ^ 1 :=
  ⟨by decide, by decide, by decide, by decide, fun c => ((2 * c) ^^^ (if c.testBit (1 - 1) then 1 else 0)) % 2 ^ 1, fun _ => rfl⟩
theorem witness_TableLaws_width_8 : 1 ≤ 8 ∧ 0x07 < 2 ^ 8 ∧ 8 ≤ 8 := by decide
theorem witness_BitStep :
    0x63 = 2 * (({ block 8 7 0x12 1 with bsAcc := 0x31 } : State).bsAcc.toNat) + (if true then 1 else 0) ∧
    0x63 = (if 0x63 / 2 ^ 8 % 2 = 1 then 0x63 ^^^ 7 else 0x63) % 2 ^ 8 := by decide
theorem witness_AugmentedAndFinalized : (block 1 1 0x13 0).w ≠ 0 ∧ 1 < 2 ^ (block 1 1 0x13 0).width := by decide
theorem witness_FirstBitsEnterUnreduced :
    (block 2 3 0x12 0).bsAcc = 0 ∧ (block 2 3 0x12 0).bsCnt = 0 ∧ (block 2 3 0x12 0).w ≠ 0 ∧
    (block 2 3 0x12 0).width ≤ (block 2 3 0x12 0).wmax ∧ [true].length < (block 2 3 0x12 0).width ∧
    [true, false].length = (block 2 3 0x12 0).width := by decide
theorem witness_XorInEntersOnce :
    (block 2 3 0x12 0).bsCnt = 0 ∧ (block 2 3 0x12 0).w ≠ 0 ∧ (block 2 3 0x12 0).width ≤ (block 2 3 0x12 0).wmax ∧
    [true].length < (block 2 3 0x12 0).width ∧ (block 2 3 0x12 0).width ≤ [true, false].length := by decide
theorem witness_CounterCountsMessageBits :
    ({ block 8 7 0x12 0 with bsCnt := 64 } : State).bsCnt.toNat ≤ (block 8 7 0x12 0).wmax := by decide
theorem witness_EightBitCommands : (block 8 7 0x12 0).ri = false ∧ (block 8 7 0x12 0).w ≠ 0 := by decide
theorem witness_WidthOneIsParity :
    (block 1 1 0x12 0).width = 1 ∧ (block 1 1 0x12 0).poly.toNat % 2 = 1 ∧ (block 1 1 0x12 0).bsAcc.toNat < 2 ∧
    (block 1 0 0x12 0).width = 1 ∧ (block 1 0 0x12 0).poly.toNat % 2 = 0 := by decide
theorem witness_BitSerialCall :
    1 ≤ (CrcParams.mk 1 1 0 0 false false).width ∧ (CrcParams.mk 1 1 0 0 false false).width ≤ State.reset.wmax ∧
    (CrcParams.mk 7 64 0 0 false false).width ≤ State.reset.wmax := by decide
theorem witness_BsFinalIsTheRemainder :
    (block 8 7 0x13 0).w ≠ 0 ∧ (block 8 7 0x13 0).bsAcc = 0 ∧ (block 8 7 0x13 0).bsCnt = 0 ∧
    (block 8 7 0x13 0).maskedXin = 0 ∧ (block 8 7 0x13 0).maskedXout = 0 ∧ (block 8 7 0x13 0).ro = false := by decide
theorem witness_TableStep :
    8 ≤ (block 8 7 0x21 0).width ∧ (block 8 7 0x21 0).width = 8 ∧ 255 < 256 ∧
    0xFF = ({ block 8 7 0x21 0 with tdAcc := 0xFF } : State).tdAcc.toNat := by decide
theorem witness_TableDrivenCall :
    8 ≤ (CrcParams.mk 7 8 0 0 false false).width ∧ (CrcParams.mk 7 8 0 0 false false).width ≤ State.reset.wmax ∧
    (CrcParams.mk 7 8 0 0 false false).width % 8 = 0 := by decide
theorem witness_ResumedTableMessage :
    8 ≤ (block 64 7 0x20 0).width ∧ (block 64 7 0x20 0).width % 8 = 0 ∧ (block 64 7 0x20 0).width ≤ (block 64 7 0x20 0).wmax := by
  decide
theorem witness_TableAccumulatorIsTheAugmented :
    8 ≤ (block 8 7 0x21 0).width ∧ (block 8 7 0x21 0).width % 8 = 0 ∧ (block 8 7 0x21 0).maskedXin = 0 ∧
    (block 8 7 0x21 0).bsAcc = 0 ∧ (block 8 7 0x21 0).bsCnt = 0 ∧ (block 8 7 0x21 0).tdAcc = 0 := by decide
theorem witness_EnginesAgree :
    (block 8 7 0x13 0).width ≤ 8 * [0x31].length ∧ [0x31] ≠ [] ∧ (block 16 0x1021 0x13 0).maskedXin = 0 := by decide
theorem witness_ResetClearsRegisters :
    ({ block 8 7 0 0 with inputs := [{ Edge.quiet with rst := true }] } : State).edge.rst = true ∧
    State.reset.phase = .inReset ∧ State.reset.edge.rst = false := by decide
theorem witness_CommandPortIsSampledOnlyAtAcceptance :
    (block 8 7 0x31 5).event = .accept ∧ (block 8 7 0x31 5).edge.cmdData = 5 ∧ decode (block 8 7 0x31 5).edge.cmdWord = .ok .refl8 ∧
    (State.reset.atEdge Edge.quiet).event ≠ .accept ∧
    (State.reset.atEdge { Edge.quiet with cmdValid := true, cmdWord := 5, cmdData := 7 }).event ≠ .accept := by decide
theorem witness_ResponseIsHeldUntilTaken :
    (block 8 7 0 0).cmdReady = true ∧ (block 8 7 0 0).event = .accept ∧
    ({ State.reset with phase := .executing ⟨.ok, 0⟩ } : State).edge.finish = true ∧
    ({ State.reset with phase := .responding ⟨.ok, 0⟩ } : State).rsp = some ⟨.ok, 0⟩ ∧
    ({ State.reset with phase := .responding ⟨.ok, 0⟩ } : State).edge.rst = false ∧
    ({ State.reset with phase := .responding ⟨.ok, 0⟩ } : State).edge.rspReady = false ∧
    (State.reset.atEdge Edge.taking).edge.rspReady = true := by decide
theorem witness_WithheldReadyBlocksForEver :
    ({ State.reset with phase := .responding ⟨.ok, 0⟩ } : State).phase = .responding ⟨.ok, 0⟩ ∧
    ∀ e ∈ [Edge.offering ⟨0, 0⟩, Edge.quiet], e.rst = false ∧ e.rspReady = false := by decide
theorem witness_OfferFinishTake : (block 8 7 0 0).phase = .idle := by decide
theorem witness_ClockEdgesRefineTransactions :
    (block 8 7 0 0).phase = .idle ∧ (∀ e ∈ [Edge.offering ⟨0x13, 0⟩, Edge.quiet, Edge.taking], e.rst = false) ∧
    acceptedOver (block 8 7 0 0) [Edge.offering ⟨0x13, 0⟩, Edge.quiet, Edge.taking] = [⟨0x13, 0⟩] := by decide
theorem witness_KoopmanGivesWidth : 1 ≤ 0x83 ∧ hostKoopman Config.reference 0x83 = some (8, 7) := by decide
theorem witness_LutContainer : lutContainerBits 64 = some 64 ∧ 9 ≤ 16 := by decide

end Sys2Proof.Tests.Slice0
end

section
/-! The scope family (00_scope.md): the bound of the lookup table, the edge that accepts a command, and clock edges against
transactions. -/

namespace Sys2Proof.Machine

/-! ## The table's entries -/

/-- Every entry the table has so far is a w-bit number. -/
def EntriesFit (w : Nat) (st : Nat × List Nat) : Prop := ∀ e ∈ st.2, e < 2 ^ w

theorem tablePass_keeps_entriesFit (p : Nat) {w : Nat} {st : Nat × List Nat} (h : EntriesFit w st) :
    EntriesFit w (tablePass p w st) := by
  intro e he
  rw [tablePass, List.mem_append, List.mem_map] at he
  obtain hold | ⟨old, -, rfl⟩ := he
  · exact h e hold
  · exact and_mask_lt _ _

theorem crcTable_entry_lt {p w e : Nat} (he : e ∈ crcTable p w) : e < 2 ^ w := by
  have start : EntriesFit w (1 <<< (w - 1), [0]) := fun e he => by
    rw [List.mem_singleton.mp he]; exact Nat.two_pow_pos w
  exact Function.Iterate.rec (EntriesFit w) start (fun _ => tablePass_keeps_entriesFit p) 8 e he

/-- Settles O36: each pass of the construction keeps the entries w-bit numbers, and an index outside the table reads 0. -/
theorem tableEntriesFitTheWidth : Obligations.TableEntriesFitTheWidth := by
  intro p w idx
  rw [tableEntry, List.getD_eq_getElem?_getD]
  cases hidx : (crcTable p w)[idx]? with
  | none => exact Nat.two_pow_pos w
  | some e => exact crcTable_entry_lt (List.mem_of_getElem? hidx)

/-! ## The accepting edge -/

theorem event_of_accepts {s : State} {word : CmdWord} (h : Accepts s word) : s.event = .accept := by
  obtain ⟨hrst, hvalid, hphase, -⟩ := h
  simp [State.event, hrst, hvalid, hphase]

theorem step_of_accept {s : State} (h : s.event = .accept) : step s = afterEdge (acceptCommand s) :=
  (step_by_event s).2.2.1 h

theorem acceptCommand_of_decode {s : State} {i : Instr} (h : decode s.edge.cmdWord = .ok i) :
    acceptCommand s = exec i s := by
  rw [acceptCommand, h]

/-- A command leaves the coming edges as they are. -/
theorem exec_inputs {i : Instr} {s t : State} (h : exec i s = .next t) : t.inputs = s.inputs := by
  obtain ⟨u, r, hexec, heffect, -⟩ := exec_answers i s
  obtain rfl : { u with phase := .executing r } = t := Host.Outcome.next.inj (hexec.symm.trans h)
  exact heffect.interface.2

/-- Settles O16. -/
theorem acceptingEdgeRunsTheDecodedInstruction : Obligations.AcceptingEdgeRunsTheDecodedInstruction := by
  intro s word i haccepts hdecode
  obtain ⟨-, -, -, rfl⟩ := id haccepts
  have hstep : step s = afterEdge (exec i s) := by
    rw [step_of_accept (event_of_accepts haccepts), acceptCommand_of_decode hdecode]
  refine ⟨hstep, fun t ht => ?_⟩
  rw [hstep, ht, afterEdge, State.advance, exec_inputs ht]

/-! ## Of its edge a command reads the command port only -/

theorem afterEdge_ite_congr {c : Prop} [Decidable c] {a a' b b' : Result} (ha : afterEdge a = afterEdge a')
    (hb : afterEdge b = afterEdge b') : afterEdge (if c then a else b) = afterEdge (if c then a' else b') := by
  split
  · exact ha
  · exact hb

theorem bsFeed_atEdge (s : State) (e : Edge) (bits : List Bool) :
    bsFeed (s.atEdge e) bits = (bsFeed s bits).atEdge e := by
  induction bits generalizing s with
  | nil => rfl
  | cons b bs ih => exact ih (bsStep s b)

/-- A command that feeds bits leaves the same state whichever edge fed them, once that edge is over. -/
theorem afterEdge_respond_bsFeed (s : State) (e e' : Edge) (bits : List Bool) :
    afterEdge (respond .ok 0 (bsFeed (s.atEdge e) bits)) = afterEdge (respond .ok 0 (bsFeed (s.atEdge e') bits)) := by
  rw [bsFeed_atEdge, bsFeed_atEdge]; rfl

/-- Two edges that drive the same operand give a command the same meaning (20_memory.md R53, R60). -/
theorem afterEdge_exec_congr (i : Instr) (s : State) {e e' : Edge} (h : e.cmdData = e'.cmdData) :
    afterEdge (exec i (s.atEdge e)) = afterEdge (exec i (s.atEdge e')) := by
  obtain ⟨rst, valid, word, data, ready, finish⟩ := e
  obtain rfl : data = e'.cmdData := h
  cases i with
  | nop => rfl
  | setxin => rfl
  | setxout => rfl
  | refl8 => rfl
  | cfg wf rif rof => exact afterEdge_ite_congr rfl rfl
  | refl wf => exact afterEdge_ite_congr rfl rfl
  | rdreg idx =>
    refine afterEdge_ite_congr ?_ rfl
    change afterEdge (match s.readRegister idx with | some v => _ | none => _) =
      afterEdge (match s.readRegister idx with | some v => _ | none => _)
    cases s.readRegister idx <;> rfl
  | bsInit => exact afterEdge_ite_congr rfl rfl
  | bsByte => exact afterEdge_ite_congr (afterEdge_respond_bsFeed ..) rfl
  | bsBit => exact afterEdge_ite_congr rfl rfl
  | bsFinal => exact afterEdge_ite_congr rfl rfl
  | tblRd idx => exact afterEdge_ite_congr rfl rfl
  | tdInit => exact afterEdge_ite_congr (afterEdge_ite_congr rfl rfl) rfl
  | tdByte => exact afterEdge_ite_congr (afterEdge_ite_congr rfl rfl) rfl
  | tdFinal => exact afterEdge_ite_congr (afterEdge_ite_congr rfl rfl) rfl

theorem afterEdge_acceptCommand_congr (s : State) {e e' : Edge} (hword : e.cmdWord = e'.cmdWord)
    (hdata : e.cmdData = e'.cmdData) :
    afterEdge (acceptCommand (s.atEdge e)) = afterEdge (acceptCommand (s.atEdge e')) := by
  have hedge : (s.atEdge e).edge.cmdWord = (s.atEdge e').edge.cmdWord := hword
  unfold acceptCommand
  rw [hedge]
  cases decode (s.atEdge e').edge.cmdWord with
  | ok i => exact afterEdge_exec_congr i s hdata
  | error _ => rfl

/-- The edge that accepts a command leaves what the edge that does no more than offer it leaves. -/
theorem step_atEdge_of_accept {s : State} {e : Edge} (hphase : s.phase = .idle) (h : (s.atEdge e).event = .accept) :
    step (s.atEdge e) = step (s.atEdge (Edge.offering ⟨e.cmdWord, e.cmdData⟩)) := by
  have hoffer : Accepts (s.atEdge (Edge.offering ⟨e.cmdWord, e.cmdData⟩)) e.cmdWord := ⟨rfl, rfl, hphase, rfl⟩
  rw [step_of_accept h, step_of_accept (event_of_accepts hoffer)]
  exact afterEdge_acceptCommand_congr s rfl rfl

/-- An accepting edge leaves the command executing, with its response in flight. -/
theorem step_of_accept_executing {s : State} (h : s.event = .accept) :
    ∃ t r, step s = .next t ∧ t.phase = .executing r := by
  rw [step_of_accept h]
  obtain ⟨i, -, heq⟩ | ⟨_, -, heq⟩ := acceptCommand_cases s
  · obtain ⟨t, r, hexec, -, -⟩ := exec_answers i s
    exact ⟨_, r, by rw [heq, hexec]; rfl, rfl⟩
  · exact ⟨_, ⟨.illegal, 0⟩, by rw [heq]; rfl, rfl⟩

/-! ## Transactions -/

theorem sameRegisters_refl (s : State) : SameRegisters s s := ⟨rfl, rfl, rfl, rfl, rfl, rfl, rfl, rfl, rfl, rfl⟩

/-- A transaction sees nothing of a state but its registers. -/
theorem transact_eq_of_sameRegisters {v s : State} (h : SameRegisters v s) (c : Command) :
    transact v c = transact s c := by
  have hstart : ({ v with phase := .idle, inputs := [Edge.offering c] } : State) =
      { s with phase := .idle, inputs := [Edge.offering c] } := by
    obtain ⟨h1, h2, h3, h4, h5, h6, h7, h8, h9, h10⟩ := h
    simp only [h1, h2, h3, h4, h5, h6, h7, h8, h9, h10]
  rw [transact, transact, hstart]

/-- On an idle block a transaction is the step at the edge that offers the command. -/
theorem transact_of_step_offering {s t : State} {c : Command} {r : Response} (hphase : s.phase = .idle)
    (hstep : step (s.atEdge (Edge.offering c)) = .next t) (ht : t.phase = .executing r) :
    transact s c = some ({ t with phase := .idle }, r) := by
  have hstart : ({ s with phase := .idle, inputs := [Edge.offering c] } : State) = s.atEdge (Edge.offering c) := by
    rw [← hphase]; rfl
  rw [transact, hstart, hstep]
  simp [State.inFlight, ht]

theorem transactAll_singleton {s t : State} {c : Command} {r : Response} (h : transact s c = some (t, r)) :
    transactAll s [c] = some (t, [r]) := by
  simp [transactAll, h]

theorem transactAll_append {s t u : State} {cs ds : List Command} {rs qs : List Response}
    (h : transactAll s cs = some (t, rs)) (h' : transactAll t ds = some (u, qs)) :
    transactAll s (cs ++ ds) = some (u, rs ++ qs) := by
  induction cs generalizing s rs with
  | nil =>
    obtain ⟨rfl, rfl⟩ : s = t ∧ [] = rs := by simpa [transactAll] using h
    exact h'
  | cons c cs ih =>
    rw [transactAll] at h
    split at h
    · cases h
    · rename_i s₁ r hc
      split at h
      · cases h
      · rename_i t₁ rs₁ hcs
        cases h
        rw [List.cons_append, transactAll, hc]
        simp [ih hcs]

/-! ## Runs over clock edges, one edge at a time -/

section Cons
variable {s t : State} {e : Edge} (h : step (s.atEdge e) = .next t) (es : List Edge)
include h

theorem afterEdges_cons : afterEdges s (e :: es) = afterEdges t es := by
  simp only [afterEdges, h]

theorem acceptedOver_cons : acceptedOver s (e :: es) = acceptedOver s [e] ++ acceptedOver t es := by
  simp only [acceptedOver, h]
  cases (s.atEdge e).event <;> rfl

theorem takenOver_cons : takenOver s (e :: es) = takenOver s [e] ++ takenOver t es := by
  simp only [takenOver, h]
  cases (s.atEdge e).event <;> rfl

end Cons

/-! ## Clock edges refine transactions -/

/-- The edges lead from s to t while the commands they accept lead, as transactions, from v to u with the responses rs:
registers agree at the end, and the response in flight at the start followed by rs is what the host takes followed by the
response in flight at the end (20_memory.md R55, R66). -/
structure EdgesRefine (v s : State) (es : List Edge) (u t : State) (rs : List Response) : Prop where
  edges : afterEdges s es = some t
  transactions : transactAll v (acceptedOver s es) = some (u, rs)
  registers : SameRegisters u t
  responses : s.inFlight.toList ++ rs = takenOver s es ++ t.inFlight.toList

theorem EdgesRefine.nil {v s : State} (h : SameRegisters v s) : EdgesRefine v s [] v s [] :=
  ⟨rfl, rfl, h, by simp [takenOver]⟩

theorem EdgesRefine.cons {v s v' s' u t : State} {e : Edge} {es : List Edge} {qs rs : List Response}
    (head : EdgesRefine v s [e] v' s' qs) (tail : EdgesRefine v' s' es u t rs) :
    EdgesRefine v s (e :: es) u t (qs ++ rs) := by
  have hstep : step (s.atEdge e) = .next s' := by
    have hedge := head.edges
    rw [afterEdges] at hedge
    split at hedge
    · rename_i heq
      rw [heq, Option.some.inj hedge]
    · cases hedge
    · cases hedge
  refine ⟨?_, ?_, tail.registers, ?_⟩
  · rw [afterEdges_cons hstep, tail.edges]
  · rw [acceptedOver_cons hstep]
    exact transactAll_append head.transactions tail.transactions
  · rw [takenOver_cons hstep, ← List.append_assoc, head.responses, List.append_assoc, tail.responses,
      List.append_assoc]

/-- The accepting edge is one transaction. -/
theorem edgesRefine_of_accept {v s : State} {e : Edge} (hv : SameRegisters v s) (hphase : s.phase = .idle)
    (hevent : (s.atEdge e).event = .accept) : ∃ u t rs, EdgesRefine v s [e] u t rs := by
  obtain ⟨t, r, hstep, ht⟩ := step_of_accept_executing hevent
  have htransact : transact v ⟨e.cmdWord, e.cmdData⟩ = some ({ t with phase := .idle }, r) := by
    rw [transact_eq_of_sameRegisters hv]
    exact transact_of_step_offering hphase (step_atEdge_of_accept hphase hevent ▸ hstep) ht
  refine ⟨{ t with phase := .idle }, t, [r], afterEdges_cons hstep [], ?_, sameRegisters_refl t, ?_⟩
  · simpa [acceptedOver, hstep, hevent] using transactAll_singleton htransact
  · simp [takenOver, hstep, hevent, State.inFlight, hphase, ht]

/-- An edge that accepts nothing is no transaction: the registers stay, and a response leaves flight only when it is taken. -/
theorem edgesRefine_of_not_accept {v s t : State} {e : Edge} (hstep : step (s.atEdge e) = .next t)
    (hevent : (s.atEdge e).event ≠ .accept) (hv : SameRegisters v t)
    (hresponses : s.inFlight.toList = takenOver s [e] ++ t.inFlight.toList) : EdgesRefine v s [e] v t [] := by
  have hnone : acceptedOver s [e] = [] := by simp [acceptedOver, hstep]
  refine ⟨afterEdges_cons hstep [], ?_, hv, by rw [List.append_nil, hresponses]⟩
  rw [hnone]; rfl

/-- One edge without reset, by what it makes the handshake do. -/
theorem edgesRefine_singleton {v s : State} {e : Edge} (hv : SameRegisters v s) (hrst : e.rst = false) :
    ∃ u t rs, EdgesRefine v s [e] u t rs := by
  obtain ⟨-, hleave, -, hoffer, hhand, hquiet⟩ := step_by_event (s.atEdge e)
  obtain hreset | hleft | haccept | hoffered | htaken | hstill := event_cases (s.atEdge e)
  · exact absurd (hreset.2.symm.trans hrst) (by decide)
  · obtain ⟨hev, -, (hphase : s.phase = .inReset)⟩ := hleft
    refine ⟨v, _, [], edgesRefine_of_not_accept (hleave hev) (by simp [hev]) hv ?_⟩
    simp [takenOver, hleave hev, hev, State.inFlight, hphase]
  · obtain ⟨hev, -, hphase, -⟩ := haccept
    exact edgesRefine_of_accept hv hphase hev
  · obtain ⟨r, hev, -, (hphase : s.phase = .executing r), -⟩ := hoffered
    refine ⟨v, _, [], edgesRefine_of_not_accept (hoffer r hev) (by simp [hev]) hv ?_⟩
    simp [takenOver, hoffer r hev, hev, State.inFlight, hphase]
  · obtain ⟨r, hev, -, (hphase : s.phase = .responding r), -⟩ := htaken
    refine ⟨v, _, [], edgesRefine_of_not_accept (hhand r hev) (by simp [hev]) hv ?_⟩
    simp [takenOver, hhand r hev, hev, State.inFlight, hphase]
  · obtain ⟨hev, -⟩ := hstill
    refine ⟨v, _, [], edgesRefine_of_not_accept (hquiet hev) (by simp [hev]) hv ?_⟩
    have hkept : (s.atEdge e).advance.inFlight = s.inFlight := rfl
    simp [takenOver, hquiet hev, hev, hkept]

/-- Any edges without reset, from any phase of the handshake. -/
theorem edgesRefine_of_noReset {v s : State} {es : List Edge} (hv : SameRegisters v s) (hrst : ∀ e ∈ es, e.rst = false) :
    ∃ u t rs, EdgesRefine v s es u t rs := by
  induction es generalizing v s with
  | nil => exact ⟨v, s, [], .nil hv⟩
  | cons e es ih =>
    rw [List.forall_mem_cons] at hrst
    obtain ⟨v', s', qs, head⟩ := edgesRefine_singleton hv hrst.1
    obtain ⟨u, t, rs, tail⟩ := ih head.registers hrst.2
    exact ⟨u, t, qs ++ rs, head.cons tail⟩

/-- Settles O56, by induction on the edges; an idle block starts with no response in flight. -/
theorem clockEdgesRefineTransactions : Obligations.ClockEdgesRefineTransactions := by
  intro s es hidle hrst
  obtain ⟨u, t, rs, h⟩ := edgesRefine_of_noReset (sameRegisters_refl s) hrst
  have hnone : s.inFlight = none := by simp [State.inFlight, hidle]
  exact ⟨t, u, rs, h.edges, h.transactions, h.registers, by simpa [hnone] using h.responses⟩

end Sys2Proof.Machine
end

section
/-! The state family (10_state.md): what an edge can lead to, the width invariant, who writes W, and the bit counter. -/

namespace Sys2Proof.Machine

/-! ## What an edge can lead to -/

/-- The next states of an edge: reset, a move of the handshake that keeps every register and puts no new response in flight,
a decoded command's effect with its answer, or the answer to a word that is no command. -/
inductive LeadsTo (s : State) : State → Prop where
  | reset (hrst : s.edge.rst = true) : LeadsTo s s.resetEdge.advance
  | handshake (p : Phase) (hresponse : ∀ r ∈ ({ s with phase := p } : State).inFlight, r ∈ s.inFlight) :
      LeadsTo s ({ s with phase := p } : State).advance
  | command (i : Instr) (u : State) (r : Response) (hphase : s.phase = .idle) (hvalid : s.edge.cmdValid = true)
      (hdecode : decode s.edge.cmdWord = .ok i) (hexec : exec i s = .next { u with phase := .executing r })
      (heffect : Effect s i u) : LeadsTo s ({ u with phase := .executing r } : State).advance
  | illegal (hphase : s.phase = .idle) (hvalid : s.edge.cmdValid = true) : LeadsTo s (s.answered .illegal 0)

theorem leadsTo_of_accept {s : State} (hev : s.event = .accept) (hphase : s.phase = .idle)
    (hvalid : s.edge.cmdValid = true) : ∃ t, step s = .next t ∧ LeadsTo s t := by
  rw [step_of_accept hev]
  obtain ⟨i, hdecode, hrun⟩ | ⟨_, -, hrun⟩ := acceptCommand_cases s
  · obtain ⟨u, r, hexec, heffect, -⟩ := exec_answers i s
    exact ⟨_, by rw [hrun, hexec]; rfl, .command i u r hphase hvalid hdecode hexec heffect⟩
  · exact ⟨_, by rw [hrun]; rfl, .illegal hphase hvalid⟩

/-- Every edge has a next state, and it is one of `LeadsTo`. -/
theorem step_leadsTo (s : State) : ∃ t, step s = .next t ∧ LeadsTo s t := by
  obtain ⟨hreset, hleave, -, hoffer, hhand, hquiet⟩ := step_by_event s
  obtain ⟨hev, hrst⟩ | ⟨hev, -⟩ | ⟨hev, -, hphase, hvalid⟩ | ⟨r, hev, -, hphase, -⟩ | ⟨r, hev, -⟩ | ⟨hev, -⟩ :=
    event_cases s
  · exact ⟨_, hreset hev, .reset hrst⟩
  · exact ⟨_, hleave hev, .handshake .idle (by simp [State.inFlight])⟩
  · exact leadsTo_of_accept hev hphase hvalid
  · exact ⟨_, hoffer r hev, .handshake (.responding r) (by simp [State.inFlight, hphase])⟩
  · exact ⟨_, hhand r hev, .handshake .idle (by simp [State.inFlight])⟩
  · exact ⟨_, hquiet hev, .handshake s.phase fun _ hr => hr⟩

theorem leadsTo_of_step {s t : State} (h : step s = .next t) : LeadsTo s t := by
  obtain ⟨t', hstep, hleads⟩ := step_leadsTo s
  obtain rfl : t = t' := Host.Outcome.next.inj (h.symm.trans hstep)
  exact hleads

/-! ## Registers within their widths -/

/-- The part of `State.WithinWidths` that speaks of the registers. -/
structure RegistersFit (s : State) : Prop where
  width : s.width ≤ s.wmax
  poly : s.poly.toNat < 2 ^ s.wmax
  xin : s.xin.toNat < 2 ^ s.wmax
  xout : s.xout.toNat < 2 ^ s.wmax
  bsAcc : s.bsAcc.toNat < 2 ^ s.wmax
  bsCnt : s.bsCnt.toNat ≤ s.wmax
  tdAcc : s.tdAcc.toNat < 2 ^ s.wmax

theorem withinWidths_iff (s : State) :
    s.WithinWidths ↔ RegistersFit s ∧ ∀ r ∈ s.inFlight, r.data.toNat < 2 ^ s.wmax :=
  ⟨fun ⟨hw, hpoly, hxin, hxout, hacc, hcnt, htd, hr⟩ => ⟨⟨hw, hpoly, hxin, hxout, hacc, hcnt, htd⟩, hr⟩,
   fun ⟨⟨hw, hpoly, hxin, hxout, hacc, hcnt, htd⟩, hr⟩ => ⟨hw, hpoly, hxin, hxout, hacc, hcnt, htd, hr⟩⟩

/-- Settles O27. -/
theorem resetIsWithinWidths : Obligations.ResetIsWithinWidths := by
  intro c
  have hpos : 0 < 2 ^ c.wmax := Nat.two_pow_pos _
  exact ⟨Nat.zero_le _, hpos, hpos, hpos, hpos, Nat.zero_le _, hpos, fun _ hr => nomatch hr⟩

/-- A W-bit number is a WMAX-bit number. -/
theorem RegistersFit.lt_of_lt_width {s : State} (h : RegistersFit s) {n : Nat} (hn : n < 2 ^ s.width) : n < 2 ^ s.wmax :=
  hn.trans_le (Nat.pow_le_pow_right (by decide) h.width)

theorem toValue_toNat_lt {n m : Nat} (h : n < m) : (toValue n).toNat < m := by
  rw [toValue_toNat]
  exact (Nat.mod_le _ _).trans_lt h

theorem registersFit_bsFeed {s : State} (h : RegistersFit s) (bits : List Bool) : RegistersFit (bsFeed s bits) := by
  obtain ⟨hacc, hcnt⟩ := bsFeed_bounds s bits h.width h.bsAcc h.bsCnt
  rw [bsFeed_frame]
  exact { h with bsAcc := hacc, bsCnt := hcnt }

/-- Neither the phase nor the coming edges bear on the registers. -/
theorem registersFit_advance {s : State} (h : RegistersFit s) (p : Phase) :
    RegistersFit ({ s with phase := p } : State).advance :=
  { h with }

/-- Every command keeps the registers within their widths. -/
theorem Effect.registersFit {s t : State} {i : Instr} (he : Effect s i t) (h : RegistersFit s) : RegistersFit t := by
  have hoperand := toValue_toNat_lt (operand_lt s)
  cases he with
  | none => exact h
  | cfg wf rif rof _ hhi =>
    have hwf : (BitVec.ofNat 7 wf).toNat ≤ s.wmax := (Nat.mod_le _ _).trans hhi
    exact { h with width := hwf, poly := hoperand }
  | setxin => exact { h with xin := hoperand }
  | setxout => exact { h with xout := hoperand }
  | bsInit => exact { h with bsAcc := Nat.two_pow_pos _, bsCnt := Nat.zero_le _ }
  | bsByte => exact registersFit_bsFeed h _
  | bsBit => exact registersFit_bsFeed h _
  | tdInit => exact { h with tdAcc := toValue_toNat_lt (h.lt_of_lt_width (maskedXin_lt s)) }
  | tdByte => exact { h with tdAcc := h.lt_of_lt_width (tdStep_tdAcc_lt s _) }

/-! ## Answers within the response bus -/

/-- What the outcome puts in flight has data below the bound. -/
def AnswersBelow (n : Nat) (result : Result) : Prop :=
  ∀ t, result = .next t → ∀ r ∈ t.inFlight, r.data.toNat < n

theorem answersBelow_respond {n v : Nat} (status : Status) (s : State) (h : v < n) :
    AnswersBelow n (respond status v s) := by
  rintro t ⟨⟩ r ⟨⟩
  exact toValue_toNat_lt h

/-- A check in front of a command answers with data 0 where it fails. -/
theorem answersBelow_ite {n : Nat} {c : Prop} [Decidable c] {e : Status} {s : State} {run : Result} (hn : 0 < n)
    (h : c → AnswersBelow n run) : AnswersBelow n (if c then run else raise e s) := by
  split
  · exact h ‹c›
  · exact answersBelow_respond e s hn

theorem RegistersFit.readRegister_lt {s : State} (h : RegistersFit s) {idx v : Nat} (hv : s.readRegister idx = some v) :
    v < 2 ^ s.wmax := by
  have hwmax : s.wmax < 2 ^ s.wmax := Nat.lt_two_pow_self
  unfold State.readRegister at hv
  split at hv <;> cases hv
  · exact configImage_lt s
  · exact h.poly
  · exact h.xin
  · exact h.xout
  · exact h.bsAcc
  · exact h.bsCnt.trans_lt hwmax
  · exact h.tdAcc
  · exact hwmax

/-- Every command's answer fits the response bus. -/
theorem RegistersFit.exec_answersBelow {s : State} (h : RegistersFit s) (i : Instr) :
    AnswersBelow (2 ^ s.wmax) (exec i s) := by
  have hpos : 0 < 2 ^ s.wmax := Nat.two_pow_pos _
  have answersZero (t : State) : AnswersBelow (2 ^ s.wmax) (respond .ok 0 t) := answersBelow_respond .ok t hpos
  have answersWidth {v : Nat} (hv : v < 2 ^ s.width) : AnswersBelow (2 ^ s.wmax) (respond .ok v s) :=
    answersBelow_respond .ok s (h.lt_of_lt_width hv)
  cases i with
  | nop => exact answersZero _
  | setxin => exact answersZero _
  | setxout => exact answersZero _
  | cfg wf rif rof => exact answersBelow_ite hpos fun _ => answersZero _
  | rdreg idx =>
    refine answersBelow_ite hpos fun _ => ?_
    split
    · exact answersBelow_respond .ok s (h.readRegister_lt ‹_›)
    · exact answersBelow_respond .badArg s hpos
  | bsInit => exact answersBelow_ite hpos fun _ => answersZero _
  | bsByte => exact answersBelow_ite hpos fun _ => answersZero _
  | bsBit => exact answersBelow_ite hpos fun _ => answersZero _
  | bsFinal =>
    refine answersBelow_ite hpos fun hconf => answersWidth (finalize_lt _ s ?_)
    exact flush_lt s ((configured_iff s).mp hconf)
  | tdInit => exact answersBelow_ite hpos fun _ => answersBelow_ite hpos fun _ => answersZero _
  | tdByte => exact answersBelow_ite hpos fun _ => answersBelow_ite hpos fun _ => answersZero _
  | tdFinal =>
    exact answersBelow_ite hpos fun _ => answersBelow_ite hpos fun _ =>
      answersWidth (finalize_lt _ s (and_mask_lt _ _))
  | tblRd idx => exact answersBelow_ite hpos fun _ => answersWidth (tableEntriesFitTheWidth _ _ _)
  | refl wf =>
    refine answersBelow_ite hpos fun hlegal => answersBelow_respond .ok s ?_
    have hwf : wf ≤ s.wmax := ((legalWidthField_iff s wf).mp hlegal).2
    exact (reflect_lt _ wf).trans_le (Nat.pow_le_pow_right (by decide) hwf)
  | refl8 =>
    exact answersBelow_respond .ok s ((reflect_lt _ 8).trans_le (Nat.pow_le_pow_right (by decide) (wmax_ge s)))

/-! ## The width invariant -/

/-- Settles O26, by what the edge can lead to: a command's effect and its answer are bounded each by its own lemma. -/
theorem stepKeepsRegistersWithinWidths : Obligations.StepKeepsRegistersWithinWidths := by
  intro s t hs hstep
  obtain ⟨hregs, hresp⟩ := (withinWidths_iff s).mp hs
  cases leadsTo_of_step hstep with
  | reset => exact ⟨resetIsWithinWidths s.cfg, rfl⟩
  | handshake p hresponse =>
    exact ⟨(withinWidths_iff _).mpr ⟨registersFit_advance hregs p, fun r hr => hresp r (hresponse r hr)⟩, rfl⟩
  | command i u r _ _ _ hexec heffect =>
    have hcfg : u.cfg = s.cfg := heffect.interface.1
    have hwmax : u.wmax = s.wmax := congrArg Config.wmax hcfg
    refine ⟨(withinWidths_iff _).mpr ⟨registersFit_advance (heffect.registersFit hregs) _, fun a ha => ?_⟩, hcfg⟩
    exact (hregs.exec_answersBelow i _ hexec a ha).trans_eq (congrArg (2 ^ ·) hwmax.symm)
  | illegal =>
    refine ⟨(withinWidths_iff _).mpr ⟨registersFit_advance hregs (.executing ⟨.illegal, 0⟩), ?_⟩, rfl⟩
    rintro r ⟨⟩
    exact Nat.two_pow_pos _

/-! ## Who writes W -/

/-- Of the commands only a `CFG` with a legal width writes W, and it writes that width. -/
theorem Effect.w_eq_or_cfg {s t : State} {i : Instr} (he : Effect s i t) :
    t.w = s.w ∨ ∃ wf rif rof, i = .cfg wf rif rof ∧ 1 ≤ wf ∧ wf ≤ s.wmax ∧ t.width = wf := by
  cases he with
  | cfg wf rif rof hlo hhi =>
    have hfits : wf < 2 ^ 7 := (hhi.trans (wmax_le s)).trans_lt (by decide)
    exact .inr ⟨wf, rif, rof, rfl, hlo, hhi, (BitVec.toNat_ofNat wf 7).trans (Nat.mod_eq_of_lt hfits)⟩
  | bsByte => exact .inl (bsFeed_w ..)
  | bsBit => exact .inl (bsFeed_w ..)
  | _ => exact .inl rfl

theorem step_w_eq_or_cfg {s t : State} (hstep : step s = .next t) (hrst : s.edge.rst = false) :
    t.w = s.w ∨ ∃ wf rif rof, s.phase = .idle ∧ s.edge.cmdValid = true ∧
      decode s.edge.cmdWord = .ok (.cfg wf rif rof) ∧ 1 ≤ wf ∧ wf ≤ s.wmax ∧ t.width = wf := by
  cases leadsTo_of_step hstep with
  | reset hrst' => exact absurd (hrst'.symm.trans hrst) (by decide)
  | handshake => exact .inl rfl
  | illegal => exact .inl rfl
  | command i u r hphase hvalid hdecode _ heffect =>
    obtain hw | ⟨wf, rif, rof, rfl, hlo, hhi, hwf⟩ := heffect.w_eq_or_cfg
    · exact .inl hw
    · exact .inr ⟨wf, rif, rof, hphase, hvalid, hdecode, hlo, hhi, hwf⟩

/-- Settles O30: the width a `CFG` writes is at least 1. -/
theorem onlyCfgAndResetChangeTheWidth : Obligations.OnlyCfgAndResetChangeTheWidth := by
  intro s t hstep hrst
  have hwrites := step_w_eq_or_cfg hstep hrst
  refine ⟨hwrites, fun hne => ?_⟩
  obtain hw | ⟨wf, _, _, _, _, _, hlo, _, hwf⟩ := hwrites
  · rwa [hw]
  · rw [Ne, w_eq_zero_iff, hwf]
    exact Nat.one_le_iff_ne_zero.mp hlo

/-! ## The bit counter -/

/-- Settles O41, by induction on the bits. -/
theorem counterCountsMessageBitsUpToWmax : Obligations.CounterCountsMessageBitsUpToWmax := by
  intro s bits
  induction bits generalizing s with
  | nil => intro hcnt; exact (Nat.min_eq_left hcnt).symm
  | cons b bs ih =>
    intro hcnt
    have hstep := bsStep_bsCnt_toNat s b
    have hbound : (bsStep s b).bsCnt.toNat ≤ s.wmax := hstep ▸ Nat.min_le_right _ _
    rw [bsFeed_cons, ih (bsStep s b) hbound, hstep, bsStep_wmax, List.length_cons]
    omega

end Sys2Proof.Machine
end

section
/-! The port family (20_memory.md): which bits of the operand a command reads, when the command port is sampled, how long a
response is held, and a command from offer to handover. -/

namespace Sys2Proof.Machine

/-! ## The bits of the operand a command reads -/

/-- Reflection at width w reads the low w bits only (41_reflect.md R120). -/
theorem reflect_and_mask (x w : Nat) : reflect (x &&& mask w) w = reflect x w := by
  refine Nat.eq_of_testBit_eq fun k => ?_
  rw [testBit_reflect, testBit_reflect, testBit_and_mask]
  by_cases hk : k < w
  · have : w - 1 - k < w := by omega
    simp [this]
  · simp [hk]

section Driving
variable (s : State) {d d' : Value}

theorem operand_driving_and_mask_congr {n : Nat} (h : d.toNat &&& mask n = d'.toNat &&& mask n) :
    (s.driving d).operand &&& mask n = (s.driving d').operand &&& mask n := by
  calc d.toNat &&& mask s.wmax &&& mask n
    _ = d.toNat &&& mask n &&& mask s.wmax := Nat.and_right_comm ..
    _ = d'.toNat &&& mask n &&& mask s.wmax := by rw [h]
    _ = d'.toNat &&& mask s.wmax &&& mask n := Nat.and_right_comm ..

theorem operand_driving_congr (h : d.toNat &&& mask s.wmax = d'.toNat &&& mask s.wmax) :
    (s.driving d).operand = (s.driving d').operand := h

theorem operandByte_driving_congr (h : d.toNat &&& mask 8 = d'.toNat &&& mask 8) :
    (s.driving d).operandByte = (s.driving d').operandByte :=
  operand_driving_and_mask_congr s h

theorem operandBit_driving_congr (h : d.toNat &&& mask 1 = d'.toNat &&& mask 1) :
    (s.driving d).operandBit = (s.driving d').operandBit := by
  have hlow := congrArg (Nat.testBit · 0) (operand_driving_and_mask_congr s h)
  simp only [testBit_and_mask] at hlow
  exact hlow

theorem inputByte_driving_congr (h : d.toNat &&& mask 8 = d'.toNat &&& mask 8) :
    (s.driving d).inputByte = (s.driving d').inputByte := by
  rw [State.inputByte, operandByte_driving_congr s h]; rfl

theorem reflect_driving_congr {wf : Nat} (h : d.toNat &&& mask wf = d'.toNat &&& mask wf) :
    reflect (s.driving d).operand wf = reflect (s.driving d').operand wf := by
  rw [← reflect_and_mask, operand_driving_and_mask_congr s h, reflect_and_mask]

theorem bsFeed_driving (bits : List Bool) : bsFeed (s.driving d) bits = (bsFeed s bits).driving d := by
  induction bits generalizing s with
  | nil => rfl
  | cons b bs ih => exact ih (bsStep s b)

end Driving

/-- Once its edge is over, a command's outcome is a function of the operand bits it reads (20_memory.md R60). -/
theorem afterEdge_exec_driving_congr (i : Instr) (s : State) {d d' : Value}
    (h : d.toNat &&& operandBitsRead s i = d'.toNat &&& operandBitsRead s i) :
    afterEdge (exec i (s.driving d)) = afterEdge (exec i (s.driving d')) := by
  cases i with
  | nop => rfl
  | cfg wf rif rof =>
    refine afterEdge_ite_congr ?_ rfl
    rw [operand_driving_congr s h]; rfl
  | setxin => rw [exec, execSetxin, operand_driving_congr s h]; rfl
  | setxout => rw [exec, execSetxout, operand_driving_congr s h]; rfl
  | rdreg idx =>
    refine afterEdge_ite_congr ?_ rfl
    have hread (d : Value) : (s.driving d).readRegister idx = s.readRegister idx := rfl
    rw [hread, hread]
    cases s.readRegister idx <;> rfl
  | bsInit => exact afterEdge_ite_congr rfl rfl
  | bsByte =>
    refine afterEdge_ite_congr ?_ rfl
    rw [inputByte_driving_congr s h, bsFeed_driving, bsFeed_driving]; rfl
  | bsBit =>
    refine afterEdge_ite_congr ?_ rfl
    rw [operandBit_driving_congr s h]; rfl
  | bsFinal => exact afterEdge_ite_congr rfl rfl
  | tdInit => exact afterEdge_ite_congr (afterEdge_ite_congr rfl rfl) rfl
  | tdByte =>
    refine afterEdge_ite_congr (afterEdge_ite_congr ?_ rfl) rfl
    rw [inputByte_driving_congr s h]; rfl
  | tdFinal => exact afterEdge_ite_congr (afterEdge_ite_congr rfl rfl) rfl
  | tblRd idx => exact afterEdge_ite_congr rfl rfl
  | refl wf =>
    refine afterEdge_ite_congr ?_ rfl
    rw [reflect_driving_congr s h]; rfl
  | refl8 => rw [exec, execRefl8, operandByte_driving_congr s h]; rfl

/-- Settles O29, from the outcomes once the edge is over; the coming edges are the only other thing the operand stands in. -/
theorem unreadOperandBitsHaveNoEffect : Obligations.UnreadOperandBitsHaveNoEffect := by
  intro i s d d' hbits
  obtain ⟨t, r, ht, -⟩ := exec_answers i (s.driving d)
  obtain ⟨t', r', ht', -⟩ := exec_answers i (s.driving d')
  have hsame := afterEdge_exec_driving_congr i s hbits
  rw [ht, ht'] at hsame
  exact ⟨_, _, ht, ht', congrArg (fun u : State => { u with inputs := [] }) (Host.Outcome.next.inj hsame)⟩

/-! ## When the command port is sampled -/

theorem cmdReady_iff (s : State) : s.cmdReady = true ↔ s.phase = .idle := by
  simp [State.cmdReady]

theorem event_eq_accept_iff (s : State) :
    s.event = .accept ↔ s.edge.rst = false ∧ s.edge.cmdValid = true ∧ s.cmdReady = true := by
  rw [cmdReady_iff]
  refine ⟨fun hev => ?_, fun ⟨hrst, hvalid, hphase⟩ => event_of_accepts ⟨hrst, hvalid, hphase, rfl⟩⟩
  obtain ⟨hrst, hphase, hvalid⟩ : s.edge.rst = false ∧ s.phase = .idle ∧ s.edge.cmdValid = true := by
    simpa [hev] using event_cases s
  exact ⟨hrst, hvalid, hphase⟩

section AtEdge
variable (s : State) (e : Edge)

@[simp] theorem atEdge_edge : (s.atEdge e).edge = e := rfl
@[simp] theorem atEdge_phase : (s.atEdge e).phase = s.phase := rfl

end AtEdge

theorem event_of_idle_of_not_accept {s : State} (hphase : s.phase = .idle) (h : s.event ≠ .accept) :
    s.event = if s.edge.rst then .reset else .quiet := by
  rw [Ne, event_eq_accept_iff, cmdReady_iff] at h
  rw [State.event, hphase]
  cases hrst : s.edge.rst with
  | true => rfl
  | false =>
    have hvalid : s.edge.cmdValid = false := by simpa [hrst, hphase] using h
    simp [hvalid]

/-- Where neither edge accepts a command, the command port decides nothing (20_memory.md R53). -/
theorem event_commandPort {s : State} {e : Edge} {valid : Bool} {word : CmdWord} {data : Value}
    (h : (s.atEdge e).event ≠ .accept)
    (h' : (s.atEdge { e with cmdValid := valid, cmdWord := word, cmdData := data }).event ≠ .accept) :
    (s.atEdge e).event = (s.atEdge { e with cmdValid := valid, cmdWord := word, cmdData := data }).event := by
  cases hphase : s.phase with
  | idle =>
    have hquiet {e : Edge} := event_of_idle_of_not_accept (s := s.atEdge e) hphase
    rw [hquiet h, hquiet h', atEdge_edge, atEdge_edge]
  | _ => rw [State.event, State.event, atEdge_phase, atEdge_phase, hphase]; rfl

/-- Away from acceptance a step takes of its edge the event only. -/
theorem step_atEdge_congr {s : State} {e e' : Edge} (hevent : (s.atEdge e).event = (s.atEdge e').event)
    (h : (s.atEdge e).event ≠ .accept) : step (s.atEdge e) = step (s.atEdge e') := by
  rw [step, step, ← hevent]
  cases hev : (s.atEdge e).event with
  | accept => exact absurd hev h
  | _ => rfl

/-- Settles O52: the accepting edge runs the command on its port, and another edge does what its event says. -/
theorem commandPortIsSampledOnlyAtAcceptance : Obligations.CommandPortIsSampledOnlyAtAcceptance := by
  refine ⟨event_eq_accept_iff, fun s i hev hdecode => ⟨and_mask _ _, ?_⟩, fun s e valid word data h h' => ?_⟩
  · obtain ⟨hrst, hvalid, hready⟩ := (event_eq_accept_iff s).mp hev
    obtain ⟨t, r, hexec, -⟩ := exec_answers i s
    obtain ⟨-, hnext⟩ := acceptingEdgeRunsTheDecodedInstruction s s.edge.cmdWord i
      ⟨hrst, hvalid, (cmdReady_iff s).mp hready, rfl⟩ hdecode
    exact ⟨_, hexec, hnext _ hexec⟩
  · exact step_atEdge_congr (event_commandPort h h') h

/-! ## From acceptance to handover -/

section Handshake
variable {s : State} {r : Response}

theorem event_of_executing (hphase : s.phase = .executing r) (hrst : s.edge.rst = false) :
    s.event = if s.edge.finish then .offer r else .quiet := by
  simp [State.event, hrst, hphase]

theorem event_of_responding (hphase : s.phase = .responding r) (hrst : s.edge.rst = false) :
    s.event = if s.edge.rspReady then .handOver r else .quiet := by
  simp [State.event, hrst, hphase]

theorem rsp_eq_some_iff : s.rsp = some r ↔ s.phase = .responding r := by
  cases hp : s.phase <;> simp [State.rsp, hp]

theorem step_of_executing (hphase : s.phase = .executing r) (hrst : s.edge.rst = false) :
    step s = .next (if s.edge.finish then s.offerResponse r else s).advance := by
  have hev := event_of_executing hphase hrst
  obtain ⟨-, -, -, hoffer, -, hquiet⟩ := step_by_event s
  cases hfinish : s.edge.finish with
  | false => exact hquiet (by simpa [hfinish] using hev)
  | true => exact hoffer r (by simpa [hfinish] using hev)

theorem step_of_responding (hphase : s.phase = .responding r) (hrst : s.edge.rst = false) :
    step s = .next (if s.edge.rspReady then s.becomeIdle else s).advance := by
  have hev := event_of_responding hphase hrst
  obtain ⟨-, -, -, -, hhand, hquiet⟩ := step_by_event s
  cases hready : s.edge.rspReady with
  | false => exact hquiet (by simpa [hready] using hev)
  | true => exact hhand r (by simpa [hready] using hev)

end Handshake

/-- Settles O53: in each phase, what the edge makes the handshake do. -/
theorem responseIsHeldUntilTaken : Obligations.ResponseIsHeldUntilTaken := by
  refine ⟨fun s hready => ?_, fun s hev => ?_, fun s r hphase hrst => ?_, fun s r hrsp hrst => ?_⟩
  · have hphase := (cmdReady_iff s).mp hready
    simp [State.inFlight, State.rsp, hphase]
  · obtain ⟨t, r, hstep, hphase⟩ := step_of_accept_executing hev
    exact ⟨t, r, hstep, by simp [State.cmdReady, hphase], by simp [State.rsp, hphase], by simp [State.inFlight, hphase]⟩
  · refine ⟨_, step_of_executing hphase hrst, ?_⟩
    cases s.edge.finish with
    | false => exact ⟨sameRegisters_refl s, by simp [State.cmdReady, State.inFlight, State.rsp, hphase]⟩
    | true => exact ⟨sameRegisters_refl s, by simp [State.cmdReady, State.inFlight, State.rsp]⟩
  · have hphase := rsp_eq_some_iff.mp hrsp
    refine ⟨_, step_of_responding hphase hrst, ?_⟩
    cases s.edge.rspReady with
    | false => exact ⟨sameRegisters_refl s, by simp [State.cmdReady, State.rsp, hphase]⟩
    | true => exact ⟨sameRegisters_refl s, by simp [State.cmdReady, State.rsp]⟩

/-! ## A command from offer to handover -/

theorem sameRegisters_trans {s t u : State} (h : SameRegisters s t) (h' : SameRegisters t u) : SameRegisters s u := by
  obtain ⟨h1, h2, h3, h4, h5, h6, h7, h8, h9, h10⟩ := h
  simpa only [SameRegisters, h1, h2, h3, h4, h5, h6, h7, h8, h9, h10] using h'

/-- What is left of an executing command: finished at one edge, its response taken at the next. -/
theorem finish_take_completes {s : State} {r : Response} (hphase : s.phase = .executing r) :
    ∃ u, afterEdges s [Edge.quiet, Edge.taking] = some u ∧ u.phase = .idle ∧ SameRegisters s u ∧
      acceptedOver s [Edge.quiet, Edge.taking] = [] ∧ takenOver s [Edge.quiet, Edge.taking] = [r] := by
  obtain ⟨-, -, hfinish, htake⟩ := responseIsHeldUntilTaken
  obtain ⟨t, hstep, hregs, -, -, hoffered⟩ := hfinish (s.atEdge Edge.quiet) r hphase rfl
  have hrsp : t.rsp = some r := hoffered.mpr rfl
  obtain ⟨u, hstep', hregs', -, hidle⟩ := htake (t.atEdge Edge.taking) r hrsp rfl
  have hevent : (s.atEdge Edge.quiet).event = .offer r := event_of_executing hphase rfl
  have hevent' : (t.atEdge Edge.taking).event = .handOver r := event_of_responding (rsp_eq_some_iff.mp hrsp) rfl
  refine ⟨u, ?_, (cmdReady_iff u).mp (hidle rfl).2, sameRegisters_trans hregs hregs', ?_, ?_⟩
  · rw [afterEdges_cons hstep, afterEdges_cons hstep', afterEdges]
  · simp [acceptedOver, hstep, hevent, hstep', hevent']
  · simp [takenOver, hstep, hevent, hstep', hevent']

/-- Settles O55: the first edge is the transaction, the other two complete it. -/
theorem offerFinishTakeCompletesACommand : Obligations.OfferFinishTakeCompletesACommand := by
  intro s c hidle
  have hevent : (s.atEdge (Edge.offering c)).event = .accept := event_of_accepts ⟨rfl, rfl, hidle, rfl⟩
  obtain ⟨t, r, hstep, hphase⟩ := step_of_accept_executing hevent
  obtain ⟨u, hedges, huidle, hregs, haccepted, htaken⟩ := finish_take_completes hphase
  refine ⟨_, r, u, transact_of_step_offering hidle hstep hphase, ?_, huidle, hregs, ?_, ?_⟩
  · rw [afterEdges_cons hstep, hedges]
  · rw [acceptedOver_cons hstep, haccepted]
    simp only [acceptedOver, hstep, hevent, List.append_nil]; rfl
  · rw [takenOver_cons hstep, htaken]
    simp [takenOver, hstep, hevent]

end Sys2Proof.Machine
end

section
/-! The encoding family (30_encoding.md): decoding undoes encoding and encoding undoes decoding, the answer to words of no row,
the checks in front of a command, and the configuration image as a `CFG` word. -/

namespace Sys2Proof

open Laws.EncodeHasFixedBits (rowOf)

/-! ## The row of an instruction -/

/-- The command an instruction is of, without its fields (30_encoding.md R80). -/
def mnemonicOf : Instr → Mnemonic
  | .nop => .nop
  | .cfg _ _ _ => .cfg
  | .setxin => .setxin
  | .setxout => .setxout
  | .rdreg _ => .rdreg
  | .bsInit => .bsInit
  | .bsByte => .bsByte
  | .bsBit => .bsBit
  | .bsFinal => .bsFinal
  | .tdInit => .tdInit
  | .tdByte => .tdByte
  | .tdFinal => .tdFinal
  | .tblRd _ => .tblRd
  | .refl _ => .refl
  | .refl8 => .refl8

/-- The row of the opcode map an instruction is of. -/
def opcodeRow (i : Instr) : Row := ⟨mnemonicOf i, (rowOf i).1, (rowOf i).2⟩

theorem opcodeRow_mem (i : Instr) : opcodeRow i ∈ opcodeTable := by
  cases i <;> simp [opcodeTable, opcodeRow, mnemonicOf, rowOf]

theorem mnemonic_determines_row :
    ∀ r ∈ opcodeTable, ∀ r' ∈ opcodeTable, r.mnemonic = r'.mnemonic → r = r' := by decide

theorem mnemonicOf_instrOf (m : Mnemonic) (word : CmdWord) : mnemonicOf (instrOf m word) = m := by
  cases m <;> rfl

theorem opcodeRow_instrOf {r : Row} (hr : r ∈ opcodeTable) (word : CmdWord) :
    opcodeRow (instrOf r.mnemonic word) = r :=
  mnemonic_determines_row _ (opcodeRow_mem _) r hr (mnemonicOf_instrOf r.mnemonic word)

/-- The word of a well-formed instruction selects the instruction's row (30_encoding.md R80, R88). -/
theorem opcodeRow_selects_encode {i : Instr} (h : i.WellFormed) : (opcodeRow i).selects (encode i) = true := by
  rw [selects_iff]
  cases i with
  | nop => exact Laws.EncodeHasFixedBits.nop h
  | cfg wf rif rof => exact Laws.EncodeHasFixedBits.cfg wf rif rof h
  | setxin => exact Laws.EncodeHasFixedBits.setxin h
  | setxout => exact Laws.EncodeHasFixedBits.setxout h
  | rdreg idx => exact Laws.EncodeHasFixedBits.rdreg idx h
  | bsInit => exact Laws.EncodeHasFixedBits.bsInit h
  | bsByte => exact Laws.EncodeHasFixedBits.bsByte h
  | bsBit => exact Laws.EncodeHasFixedBits.bsBit h
  | bsFinal => exact Laws.EncodeHasFixedBits.bsFinal h
  | tdInit => exact Laws.EncodeHasFixedBits.tdInit h
  | tdByte => exact Laws.EncodeHasFixedBits.tdByte h
  | tdFinal => exact Laws.EncodeHasFixedBits.tdFinal h
  | tblRd idx => exact Laws.EncodeHasFixedBits.tblRd idx h
  | refl wf => exact Laws.EncodeHasFixedBits.refl wf h
  | refl8 => exact Laws.EncodeHasFixedBits.refl8 h

/-! ## The fields of a word -/

theorem widthFieldFits_iff (wf : Nat) : widthFieldFits wf = true ↔ wf < 2 ^ 7 := decide_eq_true_iff

theorem indexFieldFits_iff (idx : Nat) : indexFieldFits idx = true ↔ idx < 2 ^ 8 := decide_eq_true_iff

theorem widthField_lt (word : CmdWord) : widthField word < 2 ^ 7 := BitVec.isLt _

theorem indexField_lt (word : CmdWord) : indexField word < 2 ^ 8 := BitVec.isLt _

/-- Every field read off a word fits its bits (30_encoding.md R75). -/
theorem wellFormed_instrOf (m : Mnemonic) (word : CmdWord) : (instrOf m word).WellFormed := by
  cases m with
  | cfg | refl => exact (widthFieldFits_iff _).mpr (widthField_lt word)
  | rdreg | tblRd => exact (indexFieldFits_iff _).mpr (indexField_lt word)
  | _ => rfl

theorem indexField_ofNat {opc idx : Nat} (hopc : opc < 2 ^ 8) (h : idx < 2 ^ 8) :
    indexField (BitVec.ofNat 32 (opc + (idx <<< 8))) = idx := by
  rw [indexField_eq, BitVec.toNat_ofNat, Nat.shiftLeft_eq]
  omega

theorem widthField_ofNat {opc wf : Nat} (hopc : opc < 2 ^ 8) (h : wf < 2 ^ 7) :
    widthField (BitVec.ofNat 32 (opc + (wf <<< 8))) = wf := by
  rw [widthField_eq, BitVec.toNat_ofNat, Nat.shiftLeft_eq]
  omega

theorem flagBit_lt (b : Bool) : flagBit b < 2 := by cases b <;> decide

theorem decide_flagBit_eq_one (b : Bool) : decide (flagBit b = 1) = b := by cases b <;> rfl

section Cfg
variable {wf : Nat} (rif rof : Bool) (h : wf < 2 ^ 7)
include h

theorem toNat_encode_cfg :
    (encode (.cfg wf rif rof)).toNat = 1 + wf * 2 ^ 8 + flagBit rif * 2 ^ 16 + flagBit rof * 2 ^ 17 := by
  have := flagBit_lt rif
  have := flagBit_lt rof
  simp only [encode, BitVec.toNat_ofNat, Nat.shiftLeft_eq]
  omega

theorem widthField_encode_cfg : widthField (encode (.cfg wf rif rof)) = wf := by
  rw [widthField_eq, toNat_encode_cfg rif rof h]
  omega

theorem rifField_encode_cfg : rifField (encode (.cfg wf rif rof)) = rif := by
  have := flagBit_lt rif
  have hbit : (1 + wf * 2 ^ 8 + flagBit rif * 2 ^ 16 + flagBit rof * 2 ^ 17) / 2 ^ 16 % 2 = flagBit rif := by omega
  rw [rifField, ← BitVec.testBit_toNat, toNat_encode_cfg rif rof h, Nat.testBit_eq_decide_div_mod_eq, hbit,
    decide_flagBit_eq_one]

theorem rofField_encode_cfg : rofField (encode (.cfg wf rif rof)) = rof := by
  have := flagBit_lt rif
  have := flagBit_lt rof
  have hbit : (1 + wf * 2 ^ 8 + flagBit rif * 2 ^ 16 + flagBit rof * 2 ^ 17) / 2 ^ 17 % 2 = flagBit rof := by omega
  rw [rofField, ← BitVec.testBit_toNat, toNat_encode_cfg rif rof h, Nat.testBit_eq_decide_div_mod_eq, hbit,
    decide_flagBit_eq_one]

end Cfg

/-- The fields of the word of a well-formed instruction are the instruction's own (30_encoding.md R75, R88). -/
theorem instrOf_encode {i : Instr} (h : i.WellFormed) : instrOf (mnemonicOf i) (encode i) = i := by
  cases i with
  | cfg wf rif rof =>
    have hwf := (widthFieldFits_iff wf).mp h
    rw [mnemonicOf, instrOf, widthField_encode_cfg rif rof hwf, rifField_encode_cfg rif rof hwf,
      rofField_encode_cfg rif rof hwf]
  | rdreg idx => exact congrArg Instr.rdreg (indexField_ofNat (by decide) ((indexFieldFits_iff idx).mp h))
  | tblRd idx => exact congrArg Instr.tblRd (indexField_ofNat (by decide) ((indexFieldFits_iff idx).mp h))
  | refl wf => exact congrArg Instr.refl (widthField_ofNat (by decide) ((widthFieldFits_iff wf).mp h))
  | _ => rfl

/-- Settles O24: the word of an instruction selects the instruction's row, and its fields read back. -/
theorem decodeOfEncodeIsTheInstruction : Obligations.DecodeOfEncodeIsTheInstruction := by
  intro i h
  rw [decode_of_selects (opcodeRow_mem i) (opcodeRow_selects_encode h)]
  exact congrArg Except.ok (instrOf_encode h)

/-! ## A row and its fields determine the word -/

/-- The formats N, I, R and C of the rows (30_encoding.md R71 to R74). -/
theorem format_cases : ∀ r ∈ opcodeTable,
    r.mask = maskN ∨ (r.mask = maskI ∧ (r.mnemonic = .rdreg ∨ r.mnemonic = .tblRd)) ∨
    (r.mask = maskR ∧ r.mnemonic = .refl) ∨ (r.mask = maskC ∧ r.mnemonic = .cfg) := by decide

theorem testBit_widthField (word : CmdWord) {k : Nat} (h : k < 7) :
    (widthField word).testBit k = word.getLsbD (8 + k) := by
  rw [widthField, BitVec.testBit_toNat, BitVec.getLsbD_extractLsb', decide_eq_true h, Bool.true_and]

theorem testBit_indexField (word : CmdWord) {k : Nat} (h : k < 8) :
    (indexField word).testBit k = word.getLsbD (8 + k) := by
  rw [indexField, BitVec.testBit_toNat, BitVec.getLsbD_extractLsb', decide_eq_true h, Bool.true_and]

/-- Two words with the same fixed bits and the same free bits are the same word. -/
theorem word_eq_of_fixed_of_free {v word m : CmdWord} (hfixed : v &&& m = word &&& m)
    (hfree : ∀ k < 32, m.getLsbD k = false → v.getLsbD k = word.getLsbD k) : v = word := by
  refine BitVec.eq_of_getLsbD_eq fun k hk => ?_
  cases hm : m.getLsbD k with
  | false => exact hfree k hk hm
  | true => simpa [hm] using congrArg (·.getLsbD k) hfixed

theorem maskN_getLsbD : ∀ k < 32, maskN.getLsbD k = true := by decide
theorem maskI_free : ∀ k < 32, maskI.getLsbD k = false → 8 ≤ k ∧ k < 16 := by decide
theorem maskR_free : ∀ k < 32, maskR.getLsbD k = false → 8 ≤ k ∧ k < 15 := by decide
theorem maskC_free : ∀ k < 32, maskC.getLsbD k = false → 8 ≤ k ∧ k < 15 ∨ k = 16 ∨ k = 17 := by decide

section Free
variable {v word : CmdWord} {k : Nat}

theorem getLsbD_eq_of_widthField_eq (h : widthField v = widthField word) (hk : 8 ≤ k ∧ k < 15) :
    v.getLsbD k = word.getLsbD k := by
  obtain ⟨j, rfl⟩ := Nat.exists_eq_add_of_le hk.1
  rw [← testBit_widthField v (by omega), ← testBit_widthField word (by omega), h]

theorem getLsbD_eq_of_indexField_eq (h : indexField v = indexField word) (hk : 8 ≤ k ∧ k < 16) :
    v.getLsbD k = word.getLsbD k := by
  obtain ⟨j, rfl⟩ := Nat.exists_eq_add_of_le hk.1
  rw [← testBit_indexField v (by omega), ← testBit_indexField word (by omega), h]

/-- The bits a row leaves free are those of its fields (30_encoding.md R81). -/
theorem free_bits_eq_of_instrOf_eq {r : Row} (hr : r ∈ opcodeTable)
    (h : instrOf r.mnemonic v = instrOf r.mnemonic word) (hk : k < 32) (hfree : r.mask.getLsbD k = false) :
    v.getLsbD k = word.getLsbD k := by
  obtain hm | ⟨hm, hi⟩ | ⟨hm, hi⟩ | ⟨hm, hi⟩ := format_cases r hr <;> rw [hm] at hfree
  · exact absurd ((maskN_getLsbD k hk).symm.trans hfree) (by decide)
  · have hfield : indexField v = indexField word := by
      obtain hi | hi := hi <;> simpa [hi, instrOf] using h
    exact getLsbD_eq_of_indexField_eq hfield (maskI_free k hk hfree)
  · have hfield : widthField v = widthField word := by simpa [hi, instrOf] using h
    exact getLsbD_eq_of_widthField_eq hfield (maskR_free k hk hfree)
  · obtain ⟨hfield, hrif, hrof⟩ : widthField v = widthField word ∧ rifField v = rifField word ∧
        rofField v = rofField word := by simpa [hi, instrOf] using h
    obtain hk | rfl | rfl := maskC_free k hk hfree
    · exact getLsbD_eq_of_widthField_eq hfield hk
    · exact hrif
    · exact hrof

theorem word_eq_of_instrOf_eq {r : Row} (hr : r ∈ opcodeTable) (hv : r.selects v = true) (hw : r.selects word = true)
    (h : instrOf r.mnemonic v = instrOf r.mnemonic word) : v = word := by
  rw [selects_iff] at hv hw
  exact word_eq_of_fixed_of_free (hv.trans hw.symm) fun _ hk hfree => free_bits_eq_of_instrOf_eq hr h hk hfree

end Free

/-- What a word that decodes tells: the row it selects, and the instruction the row makes of it. -/
theorem decode_eq_ok {word : CmdWord} {i : Instr} (h : decode word = .ok i) :
    ∃ r ∈ opcodeTable, r.selects word = true ∧ i = instrOf r.mnemonic word := by
  obtain ⟨r, hr, hs, hdec⟩ | ⟨-, hdec⟩ := decode_cases word
  · exact ⟨r, hr, hs, Except.ok.inj (h.symm.trans hdec)⟩
  · exact nomatch h.symm.trans hdec

/-- Settles O25: the word and the word of its instruction select the same row and have the same fields. -/
theorem encodeOfDecodeIsTheWord : Obligations.EncodeOfDecodeIsTheWord := by
  intro word i h
  obtain ⟨r, hr, hs, rfl⟩ := decode_eq_ok h
  have hwf := wellFormed_instrOf r.mnemonic word
  have hselects := opcodeRow_selects_encode hwf
  rw [opcodeRow_instrOf hr] at hselects
  have hfields := instrOf_encode hwf
  rw [mnemonicOf_instrOf] at hfields
  exact ⟨hwf, word_eq_of_instrOf_eq hr hselects hs hfields⟩

/-- Settles O17. -/
theorem sampleWordsDecodeAsTheSpecLists : Obligations.SampleWordsDecodeAsTheSpecLists := by
  unfold Obligations.SampleWordsDecodeAsTheSpecLists
  decide

end Sys2Proof

namespace Sys2Proof.Machine

/-! ## Words of no row -/

theorem step_of_decode_error {s : State} {word : CmdWord} {e : DecodeError} (haccepts : Accepts s word)
    (h : decode word = .error e) : step s = .next (s.answered .illegal 0) := by
  rw [step_of_accept (event_of_accepts haccepts)]
  obtain ⟨-, -, -, rfl⟩ := haccepts
  rw [acceptCommand, h]
  rfl

theorem decode_of_selects_none {word : CmdWord} (h : ∀ r ∈ opcodeTable, word &&& r.mask ≠ r.pattern) :
    decode word = .error (decodeError word) := by
  obtain ⟨r, hr, hs, -⟩ | ⟨-, hdec⟩ := decode_cases word
  · exact absurd ((selects_iff r word).mp hs) (h r hr)
  · exact hdec

theorem opcField_eq_mod (word : CmdWord) : opcField word = word.toNat % 2 ^ 8 := by
  simp [opcField]

/-- No row has one of the 241 unassigned opcodes (30_encoding.md R82). -/
theorem pattern_opcode_assigned : ∀ r ∈ opcodeTable,
    ¬((5 ≤ opcField r.pattern ∧ opcField r.pattern ≤ 0x0F) ∨ (0x14 ≤ opcField r.pattern ∧ opcField r.pattern ≤ 0x1F) ∨
      (0x24 ≤ opcField r.pattern ∧ opcField r.pattern ≤ 0x2F) ∨ 0x32 ≤ opcField r.pattern) := by decide

/-- Settles O18: each of the three kinds of word is rejected by the decoder. -/
theorem wordsOfNoRowAreAnsweredIllegal : Obligations.WordsOfNoRowAreAnsweredIllegal := by
  intro s word haccepts
  have answered {e : DecodeError} : decode word = .error e → step s = .next (s.answered .illegal 0) :=
    step_of_decode_error haccepts
  refine ⟨fun opc hopc hrange => ?_, fun r hr hopc hne => ?_, fun hnone => answered (decode_of_selects_none hnone)⟩
  · refine answered (decode_of_selects_none fun r hr hs => pattern_opcode_assigned r hr ?_)
    rwa [← opcField_of_selects hr ((selects_iff r word).mpr hs), opcField_eq_mod, ← hopc]
  · refine answered (decode_reservedBits hr ?_ hne)
    rw [opcField_eq, opcField_eq, hopc]

/-! ## The checks in front of a command -/

section Checks
variable {i : Instr} {s : State}

theorem exec_of_argumentBad (h : ArgumentBad s i) : exec i s = raise .badArg s := by
  cases i with
  | cfg wf rif rof => exact (checkWidthField_eq s _ wf).trans (if_neg h)
  | refl wf => exact (checkWidthField_eq s _ wf).trans (if_neg h)
  | rdreg idx => exact (checkRegisterIndex_eq s _ idx).trans (if_neg (Nat.not_le.mpr h))
  | _ => exact h.elim

theorem exec_of_unconfigured (hneeds : needsConfiguration i = true) (h : s.width = 0) :
    exec i s = raise .noCfg s := by
  have hnot : ¬s.width ≠ 0 := not_not.mpr h
  cases i with
  | bsInit | bsByte | bsBit | bsFinal | tblRd => exact (checkConfigured_eq s _).trans (if_neg hnot)
  | tdInit | tdByte | tdFinal => exact (checkTableEngine_eq s _).trans (if_neg hnot)
  | _ => cases hneeds

theorem exec_of_badTableWidth (hneeds : needsTableWidth i = true) (hconf : s.width ≠ 0)
    (h : ¬(8 ≤ s.width ∧ s.width % 8 = 0)) : exec i s = raise .badWidth s := by
  cases i with
  | tdInit | tdByte | tdFinal => exact ((checkTableEngine_eq s _).trans (if_pos hconf)).trans (if_neg h)
  | _ => cases hneeds

/-- Every index that passes check 2 names a register (10_state.md R35). -/
theorem readRegister_of_le {idx : Nat} (s : State) (h : idx ≤ 7) : ∃ v, s.readRegister idx = some v := by
  interval_cases idx <;> exact ⟨_, rfl⟩

/-- A command that passes its checks runs its own rule, which answers `OK` (30_encoding.md R86). -/
theorem exec_of_checks_pass (harg : ¬ArgumentBad s i) (hconf : needsConfiguration i = true → s.width ≠ 0)
    (htable : needsTableWidth i = true → 8 ≤ s.width ∧ s.width % 8 = 0) : ∃ v t, exec i s = respond .ok v t := by
  cases i with
  | nop | setxin | setxout | refl8 => exact ⟨_, _, rfl⟩
  | cfg wf rif rof => exact ⟨_, _, (checkWidthField_eq s _ wf).trans (if_pos (not_not.mp harg))⟩
  | refl wf => exact ⟨_, _, (checkWidthField_eq s _ wf).trans (if_pos (not_not.mp harg))⟩
  | rdreg idx =>
    have hidx : idx ≤ 7 := Nat.not_lt.mp harg
    obtain ⟨v, hv⟩ := readRegister_of_le s hidx
    exact ⟨v, s, by rw [exec, execRdreg, checkRegisterIndex_eq, if_pos hidx, hv]⟩
  | bsInit | bsByte | bsBit | bsFinal | tblRd => exact ⟨_, _, (checkConfigured_eq s _).trans (if_pos (hconf rfl))⟩
  | tdInit | tdByte | tdFinal =>
    exact ⟨_, _, ((checkTableEngine_eq s _).trans (if_pos (hconf rfl))).trans (if_pos (htable rfl))⟩

end Checks

/-- Settles O19, check by check in the order of R84 to R86. -/
theorem checksDecideTheStatusOfACommand : Obligations.ChecksDecideTheStatusOfACommand := by
  intro i s
  rw [Ne, w_eq_zero_iff]
  refine ⟨exec_of_argumentBad, exec_of_unconfigured, fun hneeds hconf hwidth => ?_, fun harg hconf htable => ?_⟩
  · exact exec_of_badTableWidth hneeds hconf (by omega)
  · obtain ⟨v, t, hexec⟩ := exec_of_checks_pass harg hconf htable
    exact ⟨_, _, hexec, rfl⟩

/-! ## The configuration image -/

/-- A bus of at least 18 wires carries the whole image, with the flags as the assembler writes them (10_state.md R36). -/
theorem configImage_eq_of_wide_bus {s : State} (hbus : 18 ≤ s.wmax) :
    s.configImage = (s.width <<< 8) ||| (flagBit s.ri <<< 16) ||| (flagBit s.ro <<< 17) := by
  have hw := width_lt s
  have hri := flagBit_lt s.ri
  have hro := flagBit_lt s.ro
  have hlt : (s.width <<< 8) ||| (flagBit s.ri <<< 16) ||| (flagBit s.ro <<< 17) < 2 ^ 18 := by
    refine Nat.or_lt_two_pow (Nat.or_lt_two_pow ?_ ?_) ?_ <;> rw [Nat.shiftLeft_eq] <;> omega
  exact and_mask_of_lt (hlt.trans_le (Nat.pow_le_pow_right (by decide) hbus))

/-- The image and bit 0 lie in different bits, so setting it adds up to the assembler's sum (10_state.md R36,
30_encoding.md R88). -/
theorem configImage_or_one {s : State} (hbus : 18 ≤ s.wmax) :
    s.configImage ||| 1 = 1 + (s.width <<< 8) + (flagBit s.ri <<< 16) + (flagBit s.ro <<< 17) := by
  have hw := width_lt s
  have hri := flagBit_lt s.ri
  have hopc : s.width <<< 8 ||| 1 = s.width <<< 8 + 1 := (Nat.shiftLeft_add_eq_or_of_lt (by decide) _).symm
  have hrif : flagBit s.ri <<< 16 ||| (s.width <<< 8 + 1) = flagBit s.ri <<< 16 + (s.width <<< 8 + 1) :=
    (Nat.shiftLeft_add_eq_or_of_lt (by rw [Nat.shiftLeft_eq]; omega) _).symm
  have hrof : flagBit s.ro <<< 17 ||| (flagBit s.ri <<< 16 + (s.width <<< 8 + 1)) =
      flagBit s.ro <<< 17 + (flagBit s.ri <<< 16 + (s.width <<< 8 + 1)) :=
    (Nat.shiftLeft_add_eq_or_of_lt (by rw [Nat.shiftLeft_eq, Nat.shiftLeft_eq]; omega) _).symm
  calc s.configImage ||| 1
    _ = flagBit s.ro <<< 17 ||| (flagBit s.ri <<< 16 ||| (s.width <<< 8 ||| 1)) := by
      rw [configImage_eq_of_wide_bus hbus, Nat.or_right_comm, Nat.or_comm, Nat.or_right_comm, Nat.or_comm (_ ||| 1)]
    _ = flagBit s.ro <<< 17 + (flagBit s.ri <<< 16 + (s.width <<< 8 + 1)) := by rw [hopc, hrif, hrof]
    _ = 1 + s.width <<< 8 + flagBit s.ri <<< 16 + flagBit s.ro <<< 17 := by omega

theorem configImage_word {s : State} (hbus : 18 ≤ s.wmax) :
    (toValue s.configImage).setWidth 32 ||| 1#32 = encode (.cfg s.width s.ri s.ro) := by
  rw [toValue, BitVec.setWidth_ofNat_of_le (by decide), ← BitVec.ofNat_or, configImage_or_one hbus]
  rfl

/-- Settles O32: the image with bit 0 set is the word the assembler writes for the `CFG`, which decodes to it by O24. -/
theorem configurationImageIsACfgWord : Obligations.ConfigurationImageIsACfgWord := by
  intro s hs hbus hconf
  obtain ⟨hwidth, -⟩ := hs
  rw [Ne, w_eq_zero_iff] at hconf
  refine ⟨toValue s.configImage, rfl, ?_, ?_⟩
  · rw [configImage_word hbus]
    exact decodeOfEncodeIsTheInstruction _ ((widthFieldFits_iff s.width).mpr (width_lt s))
  · have hw : BitVec.ofNat 7 s.width = s.w := BitVec.ofNat_toNat 7 s.w
    rw [exec, execCfg, checkWidthField_eq, if_pos ⟨Nat.one_le_iff_ne_zero.mpr hconf, hwidth⟩, hw]
    rfl

end Sys2Proof.Machine
end

section
/-! The configuration family (40_config.md): the words of a command's row, and the configuration and read-back commands one
by one. -/

namespace Sys2Proof.Machine

/-! ## The words of a row -/

/-- What 30_encoding.md says of the words of a command, for any row of the opcode map: the row's words decode to its
instruction, and a word with the row's opcode and a wrong fixed bit is answered `ILLEGAL`. -/
theorem encodedAs_instrOf {r : Row} (hr : r ∈ opcodeTable) : EncodedAs r.pattern r.mask (instrOf r.mnemonic) := by
  refine ⟨fun word h => decode_of_selects hr ((selects_iff r word).mpr h), fun s word haccepts hopc hne => ?_⟩
  have hopcode : opcField word = opcField r.pattern := by rw [opcField_eq, opcField_eq, hopc]
  exact step_of_decode_error haccepts (decode_reservedBits hr hopcode hne)

/-- The fields of a `CFG` word as arithmetic on the word (30_encoding.md R72, R75). -/
theorem instrOf_cfg (word : CmdWord) :
    instrOf .cfg word = .cfg (word.toNat / 2 ^ 8 % 2 ^ 7) (word.toNat.testBit 16) (word.toNat.testBit 17) := by
  rw [instrOf, widthField_eq]; rfl

/-- The index of a `RDREG` word as arithmetic on the word (30_encoding.md R73, R75). -/
theorem instrOf_rdreg (word : CmdWord) : instrOf .rdreg word = .rdreg (word.toNat / 2 ^ 8 % 2 ^ 8) := by
  rw [instrOf, indexField_eq]

/-! ## The commands that write configuration -/

section Cfg
variable {s : State} {wf : Nat} (rif rof : Bool)

theorem exec_cfg_of_legal (hlo : 1 ≤ wf) (hhi : wf ≤ s.wmax) :
    exec (.cfg wf rif rof) s =
      respond .ok 0 { s with w := BitVec.ofNat 7 wf, ri := rif, ro := rof, poly := toValue s.operand } :=
  (checkWidthField_eq s _ wf).trans (if_pos ⟨hlo, hhi⟩)

theorem exec_cfg_of_illegal (h : wf = 0 ∨ s.wmax < wf) : exec (.cfg wf rif rof) s = raise .badArg s := by
  refine exec_of_argumentBad fun ⟨hlo, hhi⟩ => ?_
  omega

end Cfg

/-- Settles O1. -/
theorem nopAnswersOkAndWritesNothing : Obligations.NopAnswersOkAndWritesNothing :=
  ⟨encodedAs_instrOf (opcodeRow_mem .nop), fun s => respond_eq .ok 0 s⟩

/-- Settles O2: the widths that are refused are those outside the bounds of check 2. -/
theorem cfgWritesWidthFlagsAndRawPolynomial : Obligations.CfgWritesWidthFlagsAndRawPolynomial := by
  refine ⟨?_, fun s wf rif rof => ⟨exec_cfg_of_legal rif rof, exec_cfg_of_illegal rif rof⟩⟩
  rw [← funext instrOf_cfg]
  exact encodedAs_instrOf (opcodeRow_mem (.cfg 0 false false))

/-- Settles O3. -/
theorem setxinWritesXinOnly : Obligations.SetxinWritesXinOnly :=
  ⟨encodedAs_instrOf (opcodeRow_mem .setxin), fun s => respond_eq .ok 0 { s with xin := toValue s.operand }⟩

/-- Settles O4. -/
theorem setxoutWritesXoutOnly : Obligations.SetxoutWritesXoutOnly :=
  ⟨encodedAs_instrOf (opcodeRow_mem .setxout), fun s => respond_eq .ok 0 { s with xout := toValue s.operand }⟩

/-! ## Reading back -/

/-- Of the image the bus carries the low WMAX bits; W and the two flags lie in different bits, so they add up
(10_state.md R36, log entry 3). -/
theorem configImage_eq_mod (s : State) :
    s.configImage = (s.width * 2 ^ 8 + (if s.ri then 2 ^ 16 else 0) + (if s.ro then 2 ^ 17 else 0)) % 2 ^ s.wmax := by
  have hw := width_lt s
  have hri : s.width <<< 8 ||| bit s.ri <<< 16 = s.width * 2 ^ 8 + bit s.ri * 2 ^ 16 := by
    rw [Nat.or_comm, ← Nat.shiftLeft_add_eq_or_of_lt (by rw [Nat.shiftLeft_eq]; omega), Nat.shiftLeft_eq,
      Nat.shiftLeft_eq, Nat.add_comm]
  have hlow : s.width * 2 ^ 8 + bit s.ri * 2 ^ 16 < 2 ^ 17 := by
    have : bit s.ri < 2 := by cases s.ri <;> decide
    omega
  have hro : s.width <<< 8 ||| bit s.ri <<< 16 ||| bit s.ro <<< 17 =
      s.width * 2 ^ 8 + bit s.ri * 2 ^ 16 + bit s.ro * 2 ^ 17 := by
    rw [hri, Nat.or_comm, ← Nat.shiftLeft_add_eq_or_of_lt hlow, Nat.shiftLeft_eq, Nat.add_comm]
  rw [State.configImage, and_mask, hro]
  cases s.ri <;> cases s.ro <;> rfl

theorem exec_rdreg_of_readRegister {s : State} {idx v : Nat} (hidx : idx ≤ 7) (hread : s.readRegister idx = some v) :
    exec (.rdreg idx) s = .next { s with phase := .executing ⟨.ok, toValue v⟩ } := by
  rw [exec, execRdreg, checkRegisterIndex_eq, if_pos hidx, hread]; rfl

/-- A register of the response bus's width is answered as it stands (10_state.md R35). -/
theorem exec_rdreg_of_value {s : State} {idx : Nat} {v : Value} (hidx : idx ≤ 7)
    (hread : s.readRegister idx = some v.toNat) :
    exec (.rdreg idx) s = .next { s with phase := .executing ⟨.ok, v⟩ } := by
  rw [exec_rdreg_of_readRegister hidx hread, toValue_of_toNat]

/-- Settles O5, index by index of R35. -/
theorem rdregReturnsTheIndexedRegister : Obligations.RdregReturnsTheIndexedRegister := by
  refine ⟨?_, fun s => ⟨?_, ?_, ?_, ?_, ?_, ?_, ?_, ?_, fun idx hidx => ?_⟩⟩
  · rw [← funext instrOf_rdreg]
    exact encodedAs_instrOf (opcodeRow_mem (.rdreg 0))
  · exact exec_rdreg_of_readRegister (by decide) (congrArg some (configImage_eq_mod s))
  · exact exec_rdreg_of_value (by decide) rfl
  · exact exec_rdreg_of_value (by decide) rfl
  · exact exec_rdreg_of_value (by decide) rfl
  · exact exec_rdreg_of_value (by decide) rfl
  · rw [← BitVec.ofNat_toNat]
    exact exec_rdreg_of_readRegister (by decide) rfl
  · exact exec_rdreg_of_value (by decide) rfl
  · exact exec_rdreg_of_readRegister (by decide) rfl
  · exact exec_of_argumentBad (i := .rdreg idx) hidx

end Sys2Proof.Machine
end

section
/-! The source's bit-serial call as a command sequence (43_bitserial.md R169): one command as a transaction, the three
configuration commands, a whole bit-serial message, and the XOR-in that enters once. -/

namespace Sys2Proof.Machine

/-! ## One command as a transaction -/

/-- The block between two transactions: idle, with no edge to come (00_scope.md R14). -/
def State.settled (s : State) : State := { s with phase := .idle, inputs := [] }

/-- The idle block at the edge that offers the command. -/
def State.offered (s : State) (c : Command) : State := s.settled.atEdge (Edge.offering c)

theorem transact_settled (s : State) (c : Command) : transact s.settled c = transact s c := rfl

/-- A well-formed instruction's command is one transaction: what its meaning leaves at the offering edge, and its answer. -/
theorem transact_commandOf {s t u : State} {i : Instr} {d v : Nat} {status : Status} (hwf : i.WellFormed)
    (h : exec i (s.offered (commandOf i d)) = respond status v t) (hu : t.settled = u) :
    transact s (commandOf i d) = some (u, ⟨status, toValue v⟩) := by
  have haccepts : Accepts (s.offered (commandOf i d)) (encode i) := ⟨rfl, rfl, rfl, rfl⟩
  obtain ⟨-, hnext⟩ := acceptingEdgeRunsTheDecodedInstruction _ _ i haccepts (decodeOfEncodeIsTheInstruction i hwf)
  rw [← hu, ← transact_settled, transact_of_step_offering rfl (hnext _ h) rfl]; rfl

theorem and_mask_and_mask {m n : Nat} (h : n ≤ m) (x : Nat) : x &&& mask m &&& mask n = x &&& mask n := by
  rw [and_mask, and_mask, and_mask, Nat.mod_mod_of_dvd _ (Nat.pow_dvd_pow 2 h)]

/-- The operand a command with data drives onto the WMAX wires (20_memory.md R53). -/
theorem operand_offered (s : State) {i : Instr} (d : Nat) (h : takesData i = true) :
    (s.offered (commandOf i d)).operand = d &&& mask s.wmax := by
  have hdata : (commandOf i d).data = toValue d := by rw [commandOf, if_pos h]
  calc (s.offered (commandOf i d)).operand
    _ = (toValue d).toNat &&& mask s.wmax := by rw [← hdata]; rfl
    _ = d &&& mask 127 &&& mask s.wmax := by rw [toValue_toNat, ← and_mask]
    _ = d &&& mask s.wmax := and_mask_and_mask (wmax_le s) d

/-! ## Command sequences -/

theorem transactAll_cons {s t u : State} {c : Command} {cs : List Command} {r : Response} {rs : List Response}
    (h : transact s c = some (t, r)) (h' : transactAll t cs = some (u, rs)) :
    transactAll s (c :: cs) = some (u, r :: rs) :=
  transactAll_append (transactAll_singleton h) h'

theorem lastResponse_singleton {s t : State} {c : Command} {r : Response} (h : transact s c = some (t, r)) :
    lastResponse s [c] = some r := by
  rw [lastResponse, transactAll_singleton h]; rfl

theorem lastResponse_append {s t : State} {cs ds : List Command} {rs : List Response} {r : Response}
    (h : transactAll s cs = some (t, rs)) (h' : lastResponse t ds = some r) : lastResponse s (cs ++ ds) = some r := by
  obtain ⟨⟨u, qs⟩, hds, hlast⟩ := Option.bind_eq_some_iff.mp h'
  rw [lastResponse, transactAll_append h hds, Option.bind_some, List.getLast?_append, hlast, Option.some_or]

/-! ## The configuration commands as transactions -/

theorem transact_cfg (s : State) {wf : Nat} (rif rof : Bool) (d : Nat) (hlo : 1 ≤ wf) (hhi : wf ≤ s.wmax) :
    transact s (commandOf (.cfg wf rif rof) d) =
      some ({ s.settled with w := BitVec.ofNat 7 wf, ri := rif, ro := rof, poly := toValue (d &&& mask s.wmax) },
        ⟨.ok, 0⟩) := by
  have hwf : (Instr.cfg wf rif rof).WellFormed :=
    (widthFieldFits_iff wf).mpr (hhi.trans_lt (Nat.lt_succ_of_le (wmax_le s)))
  rw [← operand_offered s (i := .cfg wf rif rof) d rfl]
  exact transact_commandOf hwf (exec_cfg_of_legal (s := s.offered _) rif rof hlo hhi) rfl

theorem transact_setxin (s : State) (d : Nat) :
    transact s (commandOf .setxin d) = some ({ s.settled with xin := toValue (d &&& mask s.wmax) }, ⟨.ok, 0⟩) := by
  rw [← operand_offered s (i := .setxin) d rfl]
  exact transact_commandOf rfl rfl rfl

theorem transact_setxout (s : State) (d : Nat) :
    transact s (commandOf .setxout d) = some ({ s.settled with xout := toValue (d &&& mask s.wmax) }, ⟨.ok, 0⟩) := by
  rw [← operand_offered s (i := .setxout) d rfl]
  exact transact_commandOf rfl rfl rfl

/-- What the three configuration commands of a call leave (40_config.md R101 to R103). -/
def State.configuredBy (s : State) (p : CrcParams) : State :=
  { s.settled with
    w := BitVec.ofNat 7 p.width
    ri := p.reflectIn
    ro := p.reflectOut
    poly := toValue (p.poly &&& mask s.wmax)
    xin := toValue (p.xorIn &&& mask s.wmax)
    xout := toValue (p.xorOut &&& mask s.wmax) }

section ConfiguredBy
variable {s : State} {p : CrcParams}

@[simp] theorem configuredBy_wmax : (s.configuredBy p).wmax = s.wmax := rfl
@[simp] theorem configuredBy_ri : (s.configuredBy p).ri = p.reflectIn := rfl
@[simp] theorem configuredBy_ro : (s.configuredBy p).ro = p.reflectOut := rfl

variable (hhi : p.width ≤ s.wmax)
include hhi

theorem transactAll_configCommands (hlo : 1 ≤ p.width) :
    transactAll s (configCommands p) = some (s.configuredBy p, [⟨.ok, 0⟩, ⟨.ok, 0⟩, ⟨.ok, 0⟩]) :=
  transactAll_cons (transact_cfg s p.reflectIn p.reflectOut p.poly hlo hhi)
    (transactAll_cons (transact_setxin _ p.xorIn) (transactAll_singleton (transact_setxout _ p.xorOut)))

theorem configuredBy_width : (s.configuredBy p).width = p.width :=
  (BitVec.toNat_ofNat ..).trans (Nat.mod_eq_of_lt (hhi.trans_lt (Nat.lt_succ_of_le (wmax_le s))))

/-- Below W a raw register holds the source's parameter. -/
theorem toValue_and_widthMask_configuredBy (x : Nat) :
    (toValue (x &&& mask s.wmax)).toNat &&& (s.configuredBy p).widthMask = x &&& mask p.width := by
  rw [toValue_toNat_of_lt (wmax_le s) (and_mask_lt x _), State.widthMask, configuredBy_width hhi, and_mask_and_mask hhi]

theorem configuredBy_maskedPoly : (s.configuredBy p).maskedPoly = p.poly &&& mask p.width :=
  toValue_and_widthMask_configuredBy hhi p.poly

theorem configuredBy_maskedXin : (s.configuredBy p).maskedXin = p.xorIn &&& mask p.width :=
  toValue_and_widthMask_configuredBy hhi p.xorIn

theorem configuredBy_maskedXout : (s.configuredBy p).maskedXout = p.xorOut &&& mask p.width :=
  toValue_and_widthMask_configuredBy hhi p.xorOut

/-- The block's output transform is the source's (43_bitserial.md R163). -/
theorem finalize_configuredBy (r : Nat) : finalize r (s.configuredBy p) = crcOutput p r := by
  rw [finalize, crcOutput, configuredBy_maskedXout hhi, configuredBy_width hhi, configuredBy_ro]

end ConfiguredBy

/-! ## The bit-serial commands as transactions -/

/-- The bits of a byte are those of its low eight bits. -/
theorem byteBits_and_mask (d : Nat) : byteBits (d &&& mask 8) = byteBits d := by
  simp only [byteBits, List.map_cons, List.map_nil, testBit_and_mask]; rfl

/-- A byte command takes in the message's bits of its byte (20_memory.md R57, R58). -/
theorem byteBits_inputByte_offered (s : State) (d : Nat) :
    byteBits (s.offered (commandOf .bsByte d)).inputByte = byteBits (if s.ri then reflect8 d else d) := by
  have hbyte : (s.offered (commandOf .bsByte d)).operandByte = d &&& mask 8 := by
    rw [State.operandByte, operand_offered s d rfl, and_mask_and_mask (wmax_ge s)]
  have hri : (s.offered (commandOf .bsByte d)).ri = s.ri := rfl
  rw [State.inputByte, hbyte, hri]
  split
  · rw [reflect8, reflect8, reflect_and_mask]
  · exact byteBits_and_mask d

theorem bsFeed_settled (s : State) (bits : List Bool) : bsFeed s.settled bits = (bsFeed s bits).settled := by
  induction bits generalizing s with
  | nil => rfl
  | cons b bs ih => exact ih (bsStep s b)

theorem bsFeed_offered_settled (s : State) (c : Command) (bits : List Bool) :
    (bsFeed (s.offered c) bits).settled = (bsFeed s bits).settled := by
  rw [State.offered, bsFeed_atEdge, bsFeed_settled]; rfl

theorem finalize_bsFeed (s : State) (bits : List Bool) (r : Nat) : finalize r (bsFeed s bits) = finalize r s := by
  rw [finalize, finalize, bsFeed_ro, bsFeed_width, bsFeed_maskedXout]

/-- What `BS_INIT` leaves on a configured block (43_bitserial.md R160). -/
def State.bsStarted (s : State) : State := { s with bsAcc := 0, bsCnt := 0 }

section Configured
variable {s : State} (hconf : s.width ≠ 0)
include hconf

theorem exec_bsInit_of_configured : exec .bsInit s = respond .ok 0 s.bsStarted :=
  (checkConfigured_eq s _).trans (if_pos hconf)

theorem exec_bsByte_of_configured : exec .bsByte s = respond .ok 0 (bsFeed s (byteBits s.inputByte)) :=
  (checkConfigured_eq s _).trans (if_pos hconf)

theorem exec_bsFinal_of_configured : exec .bsFinal s = respond .ok (finalize (flush s) s) s :=
  (checkConfigured_eq s _).trans (if_pos hconf)

theorem transact_bsInit : transact s (commandOf .bsInit 0) = some (s.bsStarted.settled, ⟨.ok, 0⟩) :=
  transact_commandOf rfl (exec_bsInit_of_configured (s := s.offered _) hconf) rfl

theorem transact_bsByte (d : Nat) :
    transact s (commandOf .bsByte d) =
      some ((bsFeed s (byteBits (if s.ri then reflect8 d else d))).settled, ⟨.ok, 0⟩) := by
  refine transact_commandOf rfl (exec_bsByte_of_configured (s := s.offered _) hconf) ?_
  rw [byteBits_inputByte_offered, bsFeed_offered_settled]

theorem transact_bsFinal :
    transact s (commandOf .bsFinal 0) = some (s.settled, ⟨.ok, toValue (finalize (flush s) s)⟩) :=
  transact_commandOf rfl (exec_bsFinal_of_configured (s := s.offered _) hconf) rfl

/-- The byte commands of a message take in the message's bits. -/
theorem transactAll_bsBytes (bytes : List Nat) :
    transactAll s.settled (bytes.map (commandOf .bsByte)) =
      some ((bsFeed s (messageBits s.ri bytes)).settled, List.replicate bytes.length ⟨.ok, 0⟩) := by
  induction bytes generalizing s with
  | nil => rfl
  | cons d ds ih =>
    have hrest := ih (s := bsFeed s (byteBits (if s.ri then reflect8 d else d))) (by rwa [bsFeed_width])
    rw [bsFeed_ri, ← bsFeed_append] at hrest
    exact transactAll_cons (transact_bsByte hconf d) hrest

/-- A whole message answers the output transform of the augmented accumulator (43_bitserial.md R160, R164, R166). -/
theorem lastResponse_bsMessage (bytes : List Nat) :
    lastResponse s (bsMessage bytes) =
      some ⟨.ok, toValue (finalize (flush (bsFeed s.bsStarted (messageBits s.ri bytes))) s)⟩ := by
  have hfed : (bsFeed s.bsStarted (messageBits s.ri bytes)).width ≠ 0 := by rwa [bsFeed_width]
  have hfinal := lastResponse_singleton (transact_bsFinal hfed)
  rw [finalize_bsFeed] at hfinal
  have hbytes := transactAll_bsBytes (s := s.bsStarted) hconf bytes
  exact lastResponse_append (transactAll_cons (transact_bsInit hconf) hbytes) hfinal

end Configured

/-! ## The XOR-in enters once -/

section XorIn
variable {s : State} {bits : List Bool} (hfits : s.width ≤ s.wmax)
include hfits

/-- Bits that all come before message bit W, or all after it, meet no XOR-in (43_bitserial.md R161). -/
theorem bsFeed_bsAcc_of_no_xorIn (h : s.bsCnt.toNat + bits.length < s.width ∨ s.width ≤ s.bsCnt.toNat) :
    (bsFeed s bits).bsAcc.toNat = bits.foldl (shiftIn s.maskedPoly s.width) s.bsAcc.toNat := by
  induction bits generalizing s with
  | nil => rfl
  | cons b bs ih =>
    rw [List.length_cons] at h
    have hcnt := bsStep_bsCnt_toNat s b
    have hacc := bsStep_bsAcc_toNat s b
    rw [if_neg (by omega)] at hacc
    have hnext : (bsStep s b).bsCnt.toNat + bs.length < s.width ∨ s.width ≤ (bsStep s b).bsCnt.toNat := by omega
    have hrest := ih (s := bsStep s b) hfits hnext
    rw [hacc] at hrest
    exact hrest

/-- Bits that end with message bit W meet the XOR-in after the last of them (43_bitserial.md R161). -/
theorem bsFeed_bsAcc_of_xorIn_last (hne : bits ≠ []) (h : s.bsCnt.toNat + bits.length = s.width) :
    (bsFeed s bits).bsAcc.toNat = bits.foldl (shiftIn s.maskedPoly s.width) s.bsAcc.toNat ^^^ s.maskedXin := by
  obtain ⟨bs, b, rfl⟩ := (List.eq_nil_or_concat' bits).resolve_left hne
  rw [List.length_append, List.length_singleton] at h
  have hcnt := counterCountsMessageBitsUpToWmax s bs (by omega)
  have hacc := bsFeed_bsAcc_of_no_xorIn hfits (bits := bs) (.inl (by omega))
  rw [bsFeed_append, bsFeed_cons, bsFeed_nil, bsStep_bsAcc_toNat, bsFeed_width, bsFeed_maskedPoly, bsFeed_maskedXin,
    hacc, if_pos (by omega), List.foldl_append]
  rfl

/-- What a message leaves in BS_ACC: the XOR-in enters once, after the first W bits, and never into a shorter message
(43_bitserial.md R168, 90_conflicts.md C2). -/
theorem bsFeed_bsAcc_of_start (hstart : s.bsCnt = 0) (hpos : 1 ≤ s.width) :
    (bsFeed s bits).bsAcc.toNat =
      if s.width ≤ bits.length then
        (bits.drop s.width).foldl (shiftIn s.maskedPoly s.width)
          ((bits.take s.width).foldl (shiftIn s.maskedPoly s.width) s.bsAcc.toNat ^^^ s.maskedXin)
      else bits.foldl (shiftIn s.maskedPoly s.width) s.bsAcc.toNat := by
  have hzero : s.bsCnt.toNat = 0 := congrArg BitVec.toNat hstart
  split
  · rename_i hlong
    have hlen : (bits.take s.width).length = s.width := List.length_take_of_le hlong
    have hcnt := counterCountsMessageBitsUpToWmax s (bits.take s.width) (by omega)
    have hacc := bsFeed_bsAcc_of_xorIn_last hfits (List.ne_nil_of_length_pos (hlen ▸ hpos)) (by omega)
    have hrest := bsFeed_bsAcc_of_no_xorIn (s := bsFeed s (bits.take s.width)) (bits := bits.drop s.width)
      (by rwa [bsFeed_width, bsFeed_wmax]) (.inr (by rw [bsFeed_width]; omega))
    rwa [← bsFeed_append, List.take_append_drop, bsFeed_maskedPoly, bsFeed_width, hacc] at hrest
  · exact bsFeed_bsAcc_of_no_xorIn hfits (.inl (by omega))

end XorIn

/-! ## The call -/

theorem foldl_replicate_eq_iterate {α β : Type} (f : α → β → α) (b : β) (n : Nat) (a : α) :
    (List.replicate n b).foldl f a = (fun x => f x b)^[n] a := by
  induction n generalizing a with
  | zero => rfl
  | succ n ih => exact ih (f a b)

/-- The augmentation takes in W zero bits (43_bitserial.md R162). -/
theorem flush_eq_foldl (s : State) :
    flush s = (List.replicate s.width false).foldl (shiftIn s.maskedPoly s.width) s.bsAcc.toNat :=
  (foldl_replicate_eq_iterate _ false s.width _).symm

/-- On a block configured with the source's parameters the engine's output is the source's (43_bitserial.md R161 to R163). -/
theorem finalize_flush_eq_crcBitwise {s : State} {p : CrcParams} (hlo : 1 ≤ p.width) (hhi : p.width ≤ s.wmax)
    (bytes : List Nat) :
    finalize (flush (bsFeed (s.configuredBy p).bsStarted (messageBits p.reflectIn bytes))) (s.configuredBy p) =
      crcBitwise p bytes := by
  have hwidth : (s.configuredBy p).bsStarted.width = p.width := configuredBy_width hhi
  have hpoly : (s.configuredBy p).bsStarted.maskedPoly = p.poly &&& mask p.width := configuredBy_maskedPoly hhi
  have hxin : (s.configuredBy p).bsStarted.maskedXin = p.xorIn &&& mask p.width := configuredBy_maskedXin hhi
  have hacc := bsFeed_bsAcc_of_start (s := (s.configuredBy p).bsStarted) (bits := messageBits p.reflectIn bytes)
    (hwidth.trans_le hhi) rfl (hlo.trans_eq hwidth.symm)
  rw [hwidth, hpoly, hxin] at hacc
  rw [finalize_configuredBy hhi, flush_eq_foldl, bsFeed_width, bsFeed_maskedPoly, hwidth, hpoly, hacc]
  rfl

/-- Settles O44: the configuration commands, then one message on the block they leave. -/
theorem bitSerialCallComputesCrcBitwise : Obligations.BitSerialCallComputesCrcBitwise := by
  intro s p bytes hlo hhi
  have hconf : (s.configuredBy p).width ≠ 0 := by rw [configuredBy_width hhi]; omega
  refine lastResponse_append (transactAll_configCommands hhi hlo) ?_
  rw [lastResponse_bsMessage hconf, configuredBy_ri, finalize_flush_eq_crcBitwise hlo hhi]

end Sys2Proof.Machine
end

section
/-! The reflection family (41_reflect.md): `REFL` and `REFL8`. -/

namespace Sys2Proof.Machine

/-- The width of a `REFL` word as arithmetic on the word (30_encoding.md R74, R75). -/
theorem instrOf_refl (word : CmdWord) : instrOf .refl word = .refl (word.toNat / 2 ^ 8 % 2 ^ 7) := by
  rw [instrOf, widthField_eq]

/-- The response bus carries a whole reflection, bit by bit (41_reflect.md R120). -/
theorem testBit_toValue_reflect (x : Nat) {w : Nat} (hw : w ≤ 127) (i : Nat) :
    (toValue (reflect x w)).toNat.testBit i = (decide (i < w) && x.testBit (w - 1 - i)) := by
  rw [toValue_toNat_of_lt hw (reflect_lt x w), testBit_reflect]

theorem exec_refl_of_legal {s : State} {wf : Nat} (hlo : 1 ≤ wf) (hhi : wf ≤ s.wmax) :
    exec (.refl wf) s = respond .ok (reflect s.operand wf) s :=
  (checkWidthField_eq s _ wf).trans (if_pos ⟨hlo, hhi⟩)

theorem exec_refl_of_illegal {s : State} {wf : Nat} (h : wf = 0 ∨ s.wmax < wf) :
    exec (.refl wf) s = raise .badArg s := by
  refine exec_of_argumentBad fun ⟨hlo, hhi⟩ => ?_
  omega

/-- The operand's bits above the low byte do not reach the answer (41_reflect.md R123). -/
theorem exec_refl8 (s : State) : exec .refl8 s = respond .ok (reflect s.operand 8) s := by
  rw [exec, execRefl8, reflect8, State.operandByte, reflect_and_mask]

/-- Settles O14: a legal width is at most 127, so the answer is the reflection itself. -/
theorem reflReversesTheLowBits : Obligations.ReflReversesTheLowBits := by
  refine ⟨?_, fun s wf => ⟨fun hlo hhi => ?_, exec_refl_of_illegal⟩⟩
  · rw [← funext instrOf_refl]
    exact encodedAs_instrOf (opcodeRow_mem (.refl 0))
  · exact ⟨_, exec_refl_of_legal hlo hhi, testBit_toValue_reflect s.operand (hhi.trans (wmax_le s))⟩

/-- Settles O15: the reflection at width 8. -/
theorem refl8ReversesTheLowByte : Obligations.Refl8ReversesTheLowByte :=
  ⟨encodedAs_instrOf (opcodeRow_mem .refl8),
    fun s => ⟨_, exec_refl8 s, testBit_toValue_reflect s.operand (by decide)⟩⟩

end Sys2Proof.Machine
end

section
/-! The table family (42_table.md): the table entry by entry, its linearity over XOR and the other laws of R142, and `TBL_RD`. -/

namespace Sys2Proof.Machine

/-! ## Functions linear over XOR -/

/-- The function is linear over XOR on the n-bit numbers (42_table.md R142). -/
def XorLinearBelow (n : Nat) (f : Nat → Nat) : Prop := ∀ a b, a < 2 ^ n → b < 2 ^ n → f (a ^^^ b) = f a ^^^ f b

/-- A bit above a number adds to it without a carry. -/
theorem two_pow_add_eq_xor {n r : Nat} (h : r < 2 ^ n) : 2 ^ n + r = 2 ^ n ^^^ r := by
  have hdiv : (2 ^ n ^^^ r) / 2 ^ n = 1 := by
    rw [Nat.xor_div_two_pow, Nat.div_self (Nat.two_pow_pos n), Nat.div_eq_of_lt h, Nat.xor_zero]
  have hmod : (2 ^ n ^^^ r) % 2 ^ n = r := by
    rw [Nat.xor_mod_two_pow, Nat.mod_self, Nat.mod_eq_of_lt h, Nat.zero_xor]
  rw [← Nat.div_add_mod (2 ^ n ^^^ r) (2 ^ n), hdiv, hmod, Nat.mul_one]

/-- An (n+1)-bit number is its top bit and an n-bit rest. -/
theorem exists_eq_top_xor_rest {n b : Nat} (h : b < 2 ^ (n + 1)) :
    ∃ top rest, (top = 0 ∨ top = 2 ^ n) ∧ rest < 2 ^ n ∧ b = top ^^^ rest := by
  by_cases hb : b < 2 ^ n
  · exact ⟨0, b, .inl rfl, hb, (Nat.zero_xor b).symm⟩
  · have hrest : b - 2 ^ n < 2 ^ n := by rw [Nat.pow_succ] at h; omega
    exact ⟨2 ^ n, b - 2 ^ n, .inr rfl, hrest, by rw [← two_pow_add_eq_xor hrest]; omega⟩

namespace XorLinearBelow
variable {n : Nat} {f g : Nat → Nat}

theorem map_zero (hf : XorLinearBelow n f) : f 0 = 0 := by
  have hzero := hf 0 0 (Nat.two_pow_pos n) (Nat.two_pow_pos n)
  rwa [Nat.xor_self, Nat.xor_self] at hzero

theorem mono {m : Nat} (hf : XorLinearBelow n f) (hmn : m ≤ n) : XorLinearBelow m f := fun a b ha hb =>
  have hle := Nat.pow_le_pow_right Nat.two_pos hmn
  hf a b (ha.trans_le hle) (hb.trans_le hle)

/-- One more bit keeps the function linear when adding that bit adds the bit's value. -/
theorem succ (hf : XorLinearBelow n f) (htop : ∀ r < 2 ^ n, f (2 ^ n ^^^ r) = f (2 ^ n) ^^^ f r) :
    XorLinearBelow (n + 1) f := by
  intro a b ha hb
  obtain ⟨u, r, hu, hr, rfl⟩ := exists_eq_top_xor_rest ha
  obtain ⟨v, t, hv, ht, rfl⟩ := exists_eq_top_xor_rest hb
  have split_top {u r : Nat} (hu : u = 0 ∨ u = 2 ^ n) (hr : r < 2 ^ n) : f (u ^^^ r) = f u ^^^ f r := by
    obtain rfl | rfl := hu
    · exact hf 0 r (Nat.two_pow_pos n) hr
    · exact htop r hr
  obtain ⟨huv, hfuv⟩ : (u ^^^ v = 0 ∨ u ^^^ v = 2 ^ n) ∧ f (u ^^^ v) = f u ^^^ f v := by
    obtain rfl | rfl := hu <;> obtain rfl | rfl := hv <;> simp [hf.map_zero]
  calc f ((u ^^^ r) ^^^ (v ^^^ t))
    _ = f ((u ^^^ v) ^^^ (r ^^^ t)) := congrArg f (by ac_rfl)
    _ = (f u ^^^ f v) ^^^ (f r ^^^ f t) := by
      rw [split_top huv (Nat.xor_lt_two_pow hr ht), hfuv, hf r t hr ht]
    _ = (f u ^^^ f r) ^^^ (f v ^^^ f t) := by ac_rfl
    _ = f (u ^^^ r) ^^^ f (v ^^^ t) := by rw [split_top hu hr, split_top hv ht]

/-- Two linear functions with the same values at the powers of two are the same. -/
theorem eq_of_two_pow (hf : XorLinearBelow n f) (hg : XorLinearBelow n g) (hpow : ∀ k < n, f (2 ^ k) = g (2 ^ k)) :
    ∀ b < 2 ^ n, f b = g b := by
  induction n with
  | zero =>
    intro b hb
    obtain rfl : b = 0 := Nat.lt_one_iff.mp hb
    rw [hf.map_zero, hg.map_zero]
  | succ n ih =>
    intro b hb
    obtain ⟨u, r, hu, hr, rfl⟩ := exists_eq_top_xor_rest hb
    have hlt : 2 ^ n < 2 ^ (n + 1) := Nat.pow_lt_pow_right Nat.one_lt_two n.lt_succ_self
    obtain ⟨hult, htop⟩ : u < 2 ^ (n + 1) ∧ f u = g u := by
      obtain rfl | rfl := hu
      · exact ⟨Nat.two_pow_pos _, by rw [hf.map_zero, hg.map_zero]⟩
      · exact ⟨hlt, hpow n n.lt_succ_self⟩
    have hrest : f r = g r :=
      ih (hf.mono n.le_succ) (hg.mono n.le_succ) (fun k hk => hpow k (hk.trans n.lt_succ_self)) r hr
    rw [hf u r hult (hr.trans hlt), hg u r hult (hr.trans hlt), htop, hrest]

end XorLinearBelow

/-! ## The advance of the generator -/

/-- The advance as arithmetic: double, reduce by p if the top bit was set, keep w bits (42_table.md R142). -/
theorem tableAdvance_eq_mod (p w c : Nat) :
    tableAdvance p w c = ((2 * c) ^^^ (if c.testBit (w - 1) then p else 0)) % 2 ^ w := by
  rw [tableAdvance, and_mask, Nat.shiftLeft_eq, Nat.pow_one, Nat.mul_comm]

theorem iterate_tableAdvance_succ_lt (p w n c : Nat) : (tableAdvance p w)^[n + 1] c < 2 ^ w := by
  rw [Function.iterate_succ_apply']
  exact tableAdvance_lt p w _

@[simp] theorem tableAdvance_zero (p w : Nat) : tableAdvance p w 0 = 0 := by
  simp [tableAdvance]

section Width
variable {p w : Nat} (hw : 1 ≤ w)
include hw

theorem tableAdvance_xor (a b : Nat) : tableAdvance p w (a ^^^ b) = tableAdvance p w a ^^^ tableAdvance p w b := by
  simp only [tableAdvance_eq_shiftIn p w _ hw]
  exact shiftIn_xor p w a b false false hw

theorem iterate_tableAdvance_xor (n a b : Nat) :
    (tableAdvance p w)^[n] (a ^^^ b) = (tableAdvance p w)^[n] a ^^^ (tableAdvance p w)^[n] b :=
  Function.Semiconj₂.iterate (op := (· ^^^ ·)) (tableAdvance_xor hw) n a b

/-- The first advance takes the generator from the top bit to the polynomial (42_table.md R142). -/
theorem tableAdvance_top (hp : p < 2 ^ w) : tableAdvance p w (2 ^ (w - 1)) = p := by
  rw [tableAdvance_eq_mod, Nat.testBit_two_pow_self, if_pos rfl, ← Nat.pow_succ', Nat.succ_eq_add_one,
    Nat.sub_add_cancel hw, Nat.xor_mod_two_pow, Nat.mod_self, Nat.mod_eq_of_lt hp, Nat.zero_xor]

end Width

/-- Below the top bit the advance doubles (42_table.md R142). -/
theorem iterate_tableAdvance_two_pow (p : Nat) {w n i : Nat} (h : i + n < w) :
    (tableAdvance p w)^[n] (2 ^ i) = 2 ^ (i + n) := by
  induction n with
  | zero => rfl
  | succ n ih =>
    have hlow : (2 ^ (i + n)).testBit (w - 1) = false := Nat.testBit_two_pow_of_ne (by omega)
    rw [Function.iterate_succ_apply', ih (by omega), tableAdvance_eq_mod, hlow, if_neg Bool.false_ne_true, Nat.xor_zero,
      ← Nat.pow_succ']
    exact Nat.mod_eq_of_lt (Nat.pow_lt_pow_right Nat.one_lt_two h)

/-! ## The table entry by entry -/

/-- The generator's running value and the table after the first n passes (42_table.md R140). -/
def tableAfter (p w n : Nat) : Nat × List Nat := (tablePass p w)^[n] (1 <<< (w - 1), [0])

/-- The table is what the eighth pass leaves (42_table.md R140). -/
theorem tableEntry_eq_tableAfter (p w idx : Nat) : tableEntry p w idx = (tableAfter p w 8).2.getD idx 0 := rfl

section Passes
variable (p w n : Nat)

theorem tableAfter_succ : tableAfter p w (n + 1) = tablePass p w (tableAfter p w n) :=
  Function.iterate_succ_apply' ..

theorem tableAfter_length : (tableAfter p w n).2.length = 2 ^ n :=
  (iterate_tablePass_length ..).trans (Nat.mul_one _)

theorem tableAfter_running : (tableAfter p w n).1 = (tableAdvance p w)^[n] (2 ^ (w - 1)) := by
  induction n with
  | zero => exact Nat.one_shiftLeft (w - 1)
  | succ n ih => rw [tableAfter_succ, Function.iterate_succ_apply', ← ih]; rfl

end Passes

/-- An entry is not written again after the pass that writes it (42_table.md R140). -/
theorem tableEntry_eq_of_le {p w n j : Nat} (hn : n ≤ 8) (hj : j < 2 ^ n) :
    tableEntry p w j = (tableAfter p w n).2.getD j 0 := by
  induction hn using Nat.decreasingInduction with
  | self => exact tableEntry_eq_tableAfter p w j
  | of_succ m _ ih =>
    have hlt : j < (tableAfter p w m).2.length := (tableAfter_length p w m).symm ▸ hj
    rw [ih (hj.trans (Nat.pow_lt_pow_right Nat.one_lt_two m.lt_succ_self)), tableAfter_succ,
      tablePass_getD_old p w _ j hlt]

theorem tableEntry_zero (p w : Nat) : tableEntry p w 0 = 0 :=
  tableEntry_eq_of_le (Nat.zero_le 8) Nat.one_pos

/-- Pass k writes entry 2^k + j: the running value XOR entry j (42_table.md R140). -/
theorem tableEntry_two_pow_xor (p w : Nat) {k j : Nat} (hk : k < 8) (hj : j < 2 ^ k) :
    tableEntry p w (2 ^ k ^^^ j) = (tableAdvance p w)^[k + 1] (2 ^ (w - 1)) ^^^ tableEntry p w j := by
  have hlen := tableAfter_length p w k
  have hlt : 2 ^ k + j < 2 ^ (k + 1) := by rw [Nat.pow_succ]; omega
  have hfits : (tableAdvance p w)^[k + 1] (2 ^ (w - 1)) ^^^ tableEntry p w j < 2 ^ w :=
    Nat.xor_lt_two_pow (iterate_tableAdvance_succ_lt ..) (tableEntriesFitTheWidth p w j)
  have hnew := tablePass_getD_new p w (tableAfter p w k) j (hlen.symm ▸ hj)
  rw [hlen, ← tableAfter_succ, tableAfter_running, ← tableEntry_eq_of_le hk.le hj,
    ← Function.iterate_succ_apply' (tableAdvance p w), and_mask_of_lt hfits] at hnew
  rw [← two_pow_add_eq_xor hj, tableEntry_eq_of_le hk hlt, hnew]

theorem tableEntry_two_pow (p w : Nat) {k : Nat} (hk : k < 8) :
    tableEntry p w (2 ^ k) = (tableAdvance p w)^[k + 1] (2 ^ (w - 1)) := by
  have h := tableEntry_two_pow_xor p w hk (Nat.two_pow_pos k)
  rwa [Nat.xor_zero, tableEntry_zero, Nat.xor_zero] at h

theorem tableEntry_one {p w : Nat} (hw : 1 ≤ w) (hp : p < 2 ^ w) : tableEntry p w 1 = p :=
  (tableEntry_two_pow p w (k := 0) (by decide)).trans (tableAdvance_top hw hp)

/-- The entries of the first n passes are linear over XOR: each pass adds one bit of the index (42_table.md R142). -/
theorem tableEntry_xorLinearBelow (p w : Nat) {n : Nat} (hn : n ≤ 8) : XorLinearBelow n (tableEntry p w) := by
  induction n with
  | zero =>
    intro a b ha hb
    obtain rfl : a = 0 := Nat.lt_one_iff.mp ha
    obtain rfl : b = 0 := Nat.lt_one_iff.mp hb
    simp [tableEntry_zero]
  | succ n ih =>
    refine (ih (Nat.le_of_succ_le hn)).succ fun r hr => ?_
    rw [tableEntry_two_pow p w hn, tableEntry_two_pow_xor p w hn hr]

/-- Eight advances of the register that holds b in its top 8 bits (42_table.md R142): both sides are linear, and they agree
where one bit of b is set, since the advance doubles until that bit stands at the top. -/
theorem tableEntry_eq_iterate (p : Nat) {w b : Nat} (hw : 8 ≤ w) (hb : b < 2 ^ 8) :
    tableEntry p w b = (tableAdvance p w)^[8] (b * 2 ^ (w - 8)) := by
  have hlinear : XorLinearBelow 8 fun b => (tableAdvance p w)^[8] (b * 2 ^ (w - 8)) := fun a b _ _ => by
    simp only [← Nat.shiftLeft_eq, Nat.shiftLeft_xor_distrib]
    exact iterate_tableAdvance_xor (by omega) 8 _ _
  refine (tableEntry_xorLinearBelow p w le_rfl).eq_of_two_pow hlinear (fun k hk => ?_) b hb
  have hdouble := iterate_tableAdvance_two_pow p (w := w) (n := 7 - k) (i := k + (w - 8)) (by omega)
  calc tableEntry p w (2 ^ k)
    _ = (tableAdvance p w)^[k + 1] (2 ^ (w - 1)) := tableEntry_two_pow p w hk
    _ = (tableAdvance p w)^[k + 1] ((tableAdvance p w)^[7 - k] (2 ^ (k + (w - 8)))) := by
      rw [hdouble, show k + (w - 8) + (7 - k) = w - 1 by omega]
    _ = (tableAdvance p w)^[8] (2 ^ k * 2 ^ (w - 8)) := by
      rw [← Function.iterate_add_apply, ← Nat.pow_add, show k + 1 + (7 - k) = 8 by omega]

/-- Settles O35: the step g of the statement is the generator's advance. -/
theorem tableLaws : Obligations.TableLaws := by
  intro p w g hw hp hg
  obtain rfl : g = tableAdvance p w := funext fun c => (hg c).trans (tableAdvance_eq_mod p w c).symm
  exact ⟨tableEntry_zero p w, tableEntry_one hw hp, tableEntry_xorLinearBelow p w le_rfl,
    fun k => tableEntry_two_pow p w, fun h8 b => tableEntry_eq_iterate p h8⟩

/-! ## Reading an entry -/

/-- A zero polynomial gives an all-zero table: the first advance is 0, and so is every later one (42_table.md R141). -/
theorem tableEntry_zero_polynomial {w idx : Nat} (hw : 1 ≤ w) (hidx : idx < 2 ^ 8) : tableEntry 0 w idx = 0 := by
  have hzero : XorLinearBelow 8 fun _ => 0 := fun _ _ _ _ => (Nat.xor_self 0).symm
  refine (tableEntry_xorLinearBelow 0 w le_rfl).eq_of_two_pow hzero (fun k hk => ?_) idx hidx
  rw [tableEntry_two_pow 0 w hk, Function.iterate_succ_apply, tableAdvance_top hw (Nat.two_pow_pos w)]
  exact Function.iterate_fixed (tableAdvance_zero 0 w) k

/-- The index of a `TBL_RD` word as arithmetic on the word (30_encoding.md R73, R75). -/
theorem instrOf_tblRd (word : CmdWord) : instrOf .tblRd word = .tblRd (word.toNat / 2 ^ 8 % 2 ^ 8) := by
  rw [instrOf, indexField_eq]

theorem exec_tblRd_of_configured {s : State} {v : Nat} (idx : Nat) (hconf : s.w ≠ 0)
    (hentry : tableEntry s.maskedPoly s.width idx = v) : exec (.tblRd idx) s = respond .ok v s := by
  rw [← hentry]
  exact (checkConfigured_eq s _).trans (if_pos ((w_eq_zero_iff s).not.mp hconf))

/-- Settles O13: the corner cases are the entries 0 and 1 and the table of the zero polynomial. -/
theorem tblRdReturnsTheTableEntry : Obligations.TblRdReturnsTheTableEntry := by
  have pos {s : State} (hconf : s.w ≠ 0) : 1 ≤ s.width :=
    Nat.one_le_iff_ne_zero.mpr ((w_eq_zero_iff s).not.mp hconf)
  refine ⟨?_, fun s idx hidx => ?_⟩
  · rw [← funext instrOf_tblRd]
    exact encodedAs_instrOf (opcodeRow_mem (.tblRd 0))
  · rw [← maskedPoly_eq_mod]
    refine ⟨fun hconf => exec_tblRd_of_configured idx hconf rfl, ?_, ?_, fun hconf hpoly => ?_, fun hzero => ?_⟩
    · rintro hconf rfl
      exact exec_tblRd_of_configured 0 hconf (tableEntry_zero _ _)
    · rintro hconf rfl
      exact exec_tblRd_of_configured 1 hconf (tableEntry_one (pos hconf) (maskedPoly_lt s))
    · exact exec_tblRd_of_configured idx hconf (hpoly ▸ tableEntry_zero_polynomial (pos hconf) hidx)
    · exact exec_of_unconfigured rfl ((w_eq_zero_iff s).mp hzero)

end Sys2Proof.Machine
end

section
/-! The bit-serial family (43_bitserial.md): the bit step in arithmetic, the four commands one by one, the first W bits
and the XOR-in after them, and `BS_FINAL` as a remainder over GF(2). -/

namespace Sys2Proof.Machine

/-! ## The shift step in arithmetic -/

theorem bit_lt (b : Bool) : bit b < 2 := by cases b <;> decide

/-- The place that shifting frees takes the bit that comes in (43_bitserial.md R161). -/
theorem shiftLeft_or_bit (acc : Nat) (b : Bool) : acc <<< 1 ||| bit b = 2 * acc + bit b := by
  rw [← Nat.shiftLeft_add_eq_or_of_lt (bit_lt b), Nat.shiftLeft_eq, Nat.pow_one, Nat.mul_comm]

/-- The shift step as arithmetic: double and add the bit, reduce by p if bit w comes out set, keep w bits
(43_bitserial.md R161). -/
theorem shiftIn_eq_mod (p w acc : Nat) (b : Bool) :
    shiftIn p w acc b =
      (if (2 * acc + bit b) / 2 ^ w % 2 = 1 then (2 * acc + bit b) ^^^ p else 2 * acc + bit b) % 2 ^ w := by
  have htop : (2 * acc + bit b).testBit w = true ↔ (2 * acc + bit b) / 2 ^ w % 2 = 1 := by
    rw [Nat.testBit_eq_decide_div_mod_eq, decide_eq_true_iff]
  rw [shiftIn, and_mask, shiftLeft_or_bit]
  simp only [htop]

/-- Settles O37: the shift step in arithmetic, with the masked registers as remainders. -/
theorem bitStepShiftsReducesMasksThenXorsIn : Obligations.BitStepShiftsReducesMasksThenXorsIn := by
  rintro s b u r rfl rfl
  refine ⟨?_, bsStep_bsAcc_lt s b⟩
  rw [bsStep, shiftIn_eq_mod, maskedPoly_eq_mod, maskedXin_eq_mod]
  rfl

/-! ## The commands -/

theorem width_ne_zero {s : State} (h : s.w ≠ 0) : s.width ≠ 0 := (w_eq_zero_iff s).not.mp h

theorem exec_of_w_eq_zero {i : Instr} {s : State} (hneeds : needsConfiguration i = true) (h : s.w = 0) :
    exec i s = raise .noCfg s :=
  exec_of_unconfigured hneeds ((w_eq_zero_iff s).mp h)

theorem exec_bsBit_of_configured {s : State} (hconf : s.width ≠ 0) :
    exec .bsBit s = respond .ok 0 (bsStep s s.operandBit) :=
  (checkConfigured_eq s _).trans (if_pos hconf)

theorem inputByte_eq_mod (s : State) :
    s.inputByte = if s.ri then reflect8 (s.operand % 2 ^ 8) else s.operand % 2 ^ 8 := by
  rw [State.inputByte, operandByte_eq_mod]

/-- Bit 0 of the operand is its parity (43_bitserial.md R165). -/
theorem operandBit_eq_decide (s : State) : s.operandBit = decide (s.operand % 2 = 1) := Nat.testBit_zero s.operand

theorem finalize_eq_mod (r : Nat) (s : State) :
    finalize r s = (if s.ro then reflect r s.width else r) ^^^ (s.xout.toNat % 2 ^ s.width) := by
  rw [finalize, maskedXout_eq_mod]

/-- Settles O6. -/
theorem bsInitClearsAccumulatorAndCounter : Obligations.BsInitClearsAccumulatorAndCounter :=
  ⟨encodedAs_instrOf (opcodeRow_mem .bsInit),
    fun _ => ⟨fun hconf => exec_bsInit_of_configured (width_ne_zero hconf), exec_of_w_eq_zero rfl⟩⟩

/-- Settles O7: feeding the eight bits of the input byte is the eight steps written out. -/
theorem bsByteFeedsEightBitsFromTheTop : Obligations.BsByteFeedsEightBitsFromTheTop := by
  refine ⟨encodedAs_instrOf (opcodeRow_mem .bsByte), fun s => ⟨fun hconf d hd => ?_, exec_of_w_eq_zero rfl⟩⟩
  rw [exec_bsByte_of_configured (width_ne_zero hconf), inputByte_eq_mod, ← hd]
  rfl

/-- Settles O8. -/
theorem bsBitFeedsOperandBitZero : Obligations.BsBitFeedsOperandBitZero := by
  refine ⟨encodedAs_instrOf (opcodeRow_mem .bsBit), fun s => ⟨fun hconf => ?_, exec_of_w_eq_zero rfl⟩⟩
  rw [exec_bsBit_of_configured (width_ne_zero hconf), operandBit_eq_decide]
  rfl

/-- Settles O9. -/
theorem bsFinalReturnsTheCrcAndWritesNothing : Obligations.BsFinalReturnsTheCrcAndWritesNothing := by
  refine ⟨encodedAs_instrOf (opcodeRow_mem .bsFinal), fun s => ⟨fun hconf => ?_, exec_of_w_eq_zero rfl⟩⟩
  rw [exec_bsFinal_of_configured (width_ne_zero hconf), finalize_eq_mod]
  rfl

/-- Settles O38, from the bounds of the augmentation and of the output transform. -/
theorem augmentedAndFinalizedValuesFitTheWidth : Obligations.AugmentedAndFinalizedValuesFitTheWidth := fun s r hconf =>
  ⟨flush_lt s (width_ne_zero hconf), fun hr => ⟨finalize_eq_mod r s, finalize_lt r s hr⟩⟩

/-! ## The first W bits -/

theorem bitsValue_concat (bits : List Bool) (b : Bool) : bitsValue (bits ++ [b]) = 2 * bitsValue bits + bit b := by
  rw [bitsValue, List.foldl_append]; rfl

theorem bitsValue_lt (bits : List Bool) : bitsValue bits < 2 ^ bits.length := by
  induction bits using List.reverseRecOn with
  | nil => exact Nat.one_pos
  | append_singleton bits b ih =>
    have hb := bit_lt b
    rw [bitsValue_concat, List.length_append, List.length_singleton, Nat.pow_succ]
    omega

/-- A shift that leaves bit w clear neither reduces nor loses a bit (43_bitserial.md R161). -/
theorem shiftIn_of_lt {w acc : Nat} {b : Bool} (p : Nat) (h : 2 * acc + bit b < 2 ^ w) :
    shiftIn p w acc b = 2 * acc + bit b := by
  rw [shiftIn_eq_mod, Nat.div_eq_of_lt h, if_neg (by decide), Nat.mod_eq_of_lt h]

/-- Into an empty accumulator of w bits, up to w bits enter unreduced (43_bitserial.md R167). -/
theorem foldl_shiftIn_eq_bitsValue (p : Nat) {w : Nat} {bits : List Bool} (h : bits.length ≤ w) :
    bits.foldl (shiftIn p w) 0 = bitsValue bits := by
  induction bits using List.reverseRecOn with
  | nil => rfl
  | append_singleton bits b ih =>
    have hfits : bitsValue (bits ++ [b]) < 2 ^ w := (bitsValue_lt _).trans_le (Nat.pow_le_pow_right Nat.two_pos h)
    rw [bitsValue_concat] at hfits ⊢
    rw [List.length_append] at h
    rw [List.foldl_append, ih (Nat.le_of_add_right_le h)]
    exact shiftIn_of_lt p hfits

/-- Settles O40: where the XOR-in enters, the masked XIN is the remainder. -/
theorem xorInEntersOnceAfterTheFirstWidthBits : Obligations.XorInEntersOnceAfterTheFirstWidthBits := by
  intro s bits hstart hconf hfits
  have hacc := bsFeed_bsAcc_of_start hfits (bits := bits) hstart (Nat.one_le_iff_ne_zero.mpr (width_ne_zero hconf))
  rw [← maskedXin_eq_mod]
  refine ⟨fun hshort => ?_, fun hlong => ?_⟩
  · rwa [if_neg (Nat.not_le.mpr hshort)] at hacc
  · rwa [if_pos hlong] at hacc

/-- Settles O39: without reduction the accumulator holds the bits' value; one bit more still leaves bit W clear. -/
theorem firstBitsEnterUnreduced : Obligations.FirstBitsEnterUnreduced := by
  intro s bits hempty hstart hconf hfits
  have hzero : s.bsAcc.toNat = 0 := congrArg BitVec.toNat hempty
  obtain ⟨hshort, hlong⟩ := xorInEntersOnceAfterTheFirstWidthBits s bits hstart hconf hfits
  rw [hzero] at hshort hlong
  refine ⟨fun hlt => ?_, fun heq => ?_⟩
  · have hacc := (hshort hlt).trans (foldl_shiftIn_eq_bitsValue _ hlt.le)
    refine ⟨hacc, fun b => Nat.testBit_lt_two_pow ?_⟩
    rw [hacc, ← bitsValue_concat]
    refine (bitsValue_lt _).trans_le (Nat.pow_le_pow_right Nat.two_pos ?_)
    rwa [List.length_append, List.length_singleton]
  · rw [hlong heq.ge, ← heq, List.drop_length, List.take_length, foldl_shiftIn_eq_bitsValue _ le_rfl]
    rfl

/-! ## The remainder over GF(2) -/

/-- Equal low bits cancel in XOR. -/
theorem two_mul_add_bit_xor (x y : Nat) (b : Bool) : (2 * x + bit b) ^^^ (2 * y + bit b) = 2 * (x ^^^ y) := by
  cases b with
  | false => exact Nat.xor_bit false x false y
  | true => exact Nat.xor_bit true x true y

theorem two_mul_xor (x y : Nat) : 2 * (x ^^^ y) = 2 * x ^^^ 2 * y := (two_mul_add_bit_xor x y false).symm

namespace IsPolyMultiple
variable {g x : Nat}

/-- Adding the generator keeps a multiple one. -/
theorem xor_generator (h : IsPolyMultiple g x) : IsPolyMultiple g (x ^^^ g) := by
  obtain ⟨shifts, rfl⟩ := h
  exact ⟨shifts ++ [0], by rw [List.foldl_append]; rfl⟩

/-- Shifting a multiple by one place shifts each of its copies of the generator. -/
theorem two_mul (h : IsPolyMultiple g x) : IsPolyMultiple g (2 * x) := by
  obtain ⟨shifts, rfl⟩ := h
  refine ⟨shifts.map (· + 1), ?_⟩
  induction shifts using List.reverseRecOn with
  | nil => rfl
  | append_singleton shifts k ih =>
    rw [List.map_append, List.foldl_append, List.foldl_append, ← ih]
    exact (two_mul_xor _ _).trans (congrArg (_ ^^^ ·) (Nat.shiftLeft_succ g k).symm)

end IsPolyMultiple

theorem foldl_shiftIn_lt (p w : Nat) (bits : List Bool) : bits.foldl (shiftIn p w) 0 < 2 ^ w := by
  induction bits using List.reverseRecOn with
  | nil => exact Nat.two_pow_pos w
  | append_singleton bits b _ => rw [List.foldl_append]; exact shiftIn_lt ..

/-- A shift step of a w-bit accumulator subtracts the generator x^w + p or nothing (43_bitserial.md R161). -/
theorem shiftIn_eq_or_xor_generator {p w acc : Nat} (hp : p < 2 ^ w) (hacc : acc < 2 ^ w) (b : Bool) :
    shiftIn p w acc b = 2 * acc + bit b ∨ shiftIn p w acc b = (2 * acc + bit b) ^^^ (2 ^ w + p) := by
  have hb := bit_lt b
  have hlt : 2 * acc + bit b < 2 ^ (w + 1) := by rw [Nat.pow_succ]; omega
  obtain ⟨top, rest, rfl | rfl, hrest, heq⟩ := exists_eq_top_xor_rest hlt
  · rw [Nat.zero_xor] at heq
    exact .inl (shiftIn_of_lt p (heq ▸ hrest))
  · right
    have htop : (2 ^ w ^^^ rest) / 2 ^ w % 2 = 1 := by
      rw [Nat.xor_div_two_pow, Nat.div_self (Nat.two_pow_pos w), Nat.div_eq_of_lt hrest]; rfl
    have hcancel : 2 ^ w ^^^ rest ^^^ (2 ^ w ^^^ p) = rest ^^^ p := by
      rw [Nat.xor_comm (2 ^ w) rest, Nat.xor_assoc, Nat.xor_xor_cancel_left]
    rw [shiftIn_eq_mod, heq, if_pos htop, two_pow_add_eq_xor hp, hcancel, Nat.xor_mod_two_pow, Nat.xor_mod_two_pow,
      Nat.mod_self, Nat.zero_xor, Nat.mod_eq_of_lt hrest, Nat.mod_eq_of_lt hp]

/-- A message and what its shift steps leave in an empty accumulator differ by a multiple of the generator, step by step
(43_bitserial.md R161). -/
theorem bitsValue_xor_foldl_shiftIn_isPolyMultiple {p w : Nat} (hp : p < 2 ^ w) (bits : List Bool) :
    IsPolyMultiple (2 ^ w + p) (bitsValue bits ^^^ bits.foldl (shiftIn p w) 0) := by
  induction bits using List.reverseRecOn with
  | nil => exact ⟨[], Nat.xor_self 0⟩
  | append_singleton bits b ih =>
    rw [bitsValue_concat, List.foldl_append, List.foldl_cons, List.foldl_nil]
    obtain hstep | hstep := shiftIn_eq_or_xor_generator hp (foldl_shiftIn_lt p w bits) b
    · rw [hstep, two_mul_add_bit_xor]
      exact ih.two_mul
    · rw [hstep, ← Nat.xor_assoc, two_mul_add_bit_xor]
      exact ih.two_mul.xor_generator

/-- The zero bits of the augmentation multiply the message by x^n (43_bitserial.md R162). -/
theorem bitsValue_append_zeros (bits : List Bool) (n : Nat) :
    bitsValue (bits ++ List.replicate n false) = bitsValue bits * 2 ^ n := by
  induction n with
  | zero => simp
  | succ n ih => rw [List.replicate_succ', ← List.append_assoc, bitsValue_concat, ih, bit_false, Nat.pow_succ]; ring

/-- Without XOR-in a message only shifts the accumulator (43_bitserial.md R161). -/
theorem bsFeed_bsAcc_of_maskedXin_zero {s : State} (hxin : s.maskedXin = 0) (bits : List Bool) :
    (bsFeed s bits).bsAcc.toNat = bits.foldl (shiftIn s.maskedPoly s.width) s.bsAcc.toNat := by
  induction bits using List.reverseRecOn with
  | nil => rfl
  | append_singleton bits b ih =>
    rw [bsFeed_append, bsFeed_cons, bsFeed_nil, bsStep_bsAcc_toNat, bsFeed_maskedPoly, bsFeed_width, bsFeed_maskedXin,
      hxin, Nat.xor_zero, ite_self, ih, List.foldl_append]
    rfl

/-- The augmentation of a message without XOR-in: the message and W zero bits, shifted through an empty accumulator. -/
theorem flush_bsFeed_of_maskedXin_zero {s : State} (hempty : s.bsAcc = 0) (hxin : s.maskedXin = 0) (bits : List Bool) :
    flush (bsFeed s bits) = (bits ++ List.replicate s.width false).foldl (shiftIn s.maskedPoly s.width) 0 := by
  have hzero : s.bsAcc.toNat = 0 := congrArg BitVec.toNat hempty
  rw [flush_eq_foldl, bsFeed_maskedPoly, bsFeed_width, bsFeed_bsAcc_of_maskedXin_zero hxin, hzero, List.foldl_append]

theorem finalize_of_no_transform {s : State} (hro : s.ro = false) (hxout : s.maskedXout = 0) (r : Nat) :
    finalize r s = r := by
  rw [finalize, hro, hxout, if_neg Bool.false_ne_true, Nat.xor_zero]

/-- Settles O45: the response is the augmentation of the message, which differs from the message times x^W by a multiple
of the generator. -/
theorem bsFinalIsTheRemainderOverGF2 : Obligations.BsFinalIsTheRemainderOverGF2 := by
  intro s bits hconf hempty _ hxin hxout hro
  have hfed : (bsFeed s bits).width ≠ 0 := by rw [bsFeed_width]; exact width_ne_zero hconf
  have hlt : flush (bsFeed s bits) < 2 ^ s.width := by rw [← bsFeed_width s bits]; exact flush_lt _ hfed
  have hvalue := toValue_toNat_of_lt (Nat.lt_succ_iff.mp (width_lt s)) hlt
  refine ⟨toValue (flush (bsFeed s bits)), ?_, hvalue.trans_lt hlt, ?_⟩
  · rw [exec_bsFinal_of_configured hfed, finalize_bsFeed, finalize_of_no_transform hro hxout]
    rfl
  · rw [hvalue, flush_bsFeed_of_maskedXin_zero hempty hxin, ← bitsValue_append_zeros, ← maskedPoly_eq_mod]
    exact bitsValue_xor_foldl_shiftIn_isPolyMultiple (maskedPoly_lt s) _

end Sys2Proof.Machine
end

section
/-! The table-driven family (44_tabledriven.md): the table step on numbers, the three commands one by one, and the source's
table-driven call as a command sequence (R194). -/

namespace Sys2Proof.Machine

/-! ## The table step on numbers -/

/-- `td_step` on the accumulator as a number (44_tabledriven.md R191). -/
def tableStep (p w acc d : Nat) : Nat :=
  ((acc <<< 8) ^^^ tableEntry p w (((acc >>> (w - 8)) ^^^ d) &&& 0xFF)) &&& mask w

theorem tableStep_lt (p w acc d : Nat) : tableStep p w acc d < 2 ^ w := and_mask_lt _ _

/-- The table's index takes only the low eight bits of the byte (44_tabledriven.md R191). -/
theorem tableStep_and_mask (p w acc d : Nat) : tableStep p w acc (d &&& mask 8) = tableStep p w acc d := by
  have hindex : (acc >>> (w - 8) ^^^ (d &&& mask 8)) &&& mask 8 = (acc >>> (w - 8) ^^^ d) &&& mask 8 := by
    rw [Nat.and_xor_distrib_right, Nat.and_assoc, Nat.and_self, ← Nat.and_xor_distrib_right]
  exact congrArg (fun idx => (acc <<< 8 ^^^ tableEntry p w idx) &&& mask w) hindex

/-- The state with the number in TD_ACC, the one register the table-driven engine writes (10_state.md R34). -/
def State.withTdAcc (s : State) (acc : Nat) : State := { s with tdAcc := toValue acc }

@[simp] theorem withTdAcc_width (s : State) (acc : Nat) : (s.withTdAcc acc).width = s.width := rfl

theorem finalize_withTdAcc (r : Nat) (s : State) (acc : Nat) : finalize r (s.withTdAcc acc) = finalize r s := rfl

/-- A number below 2^W reads back from TD_ACC. -/
theorem withTdAcc_tdAcc_toNat {s : State} {acc : Nat} (h : acc < 2 ^ s.width) : (s.withTdAcc acc).tdAcc.toNat = acc :=
  toValue_toNat_of_lt (Nat.lt_succ_iff.mp (width_lt s)) h

theorem tdStep_eq_withTdAcc (s : State) (d : Nat) :
    tdStep s d = s.withTdAcc (tableStep s.maskedPoly s.width s.tdAcc.toNat d) := rfl

/-! ## The commands -/

/-- A width outside those of check 4, as the rules of 44_tabledriven.md write it. -/
theorem exec_of_width_not_table {i : Instr} {s : State} (hneeds : needsTableWidth i = true) (hconf : s.w ≠ 0)
    (h : s.width < 8 ∨ s.width % 8 ≠ 0) : exec i s = raise .badWidth s :=
  exec_of_badTableWidth hneeds (width_ne_zero hconf) (by omega)

section TableWidth
variable {s : State} (hlo : 8 ≤ s.width) (hdvd : s.width % 8 = 0)
include hlo hdvd

theorem checkTableEngine_of_tableWidth (run : Result) : checkTableEngine s run = run := by
  rw [checkTableEngine_eq, if_pos (by omega), if_pos ⟨hlo, hdvd⟩]

theorem exec_tdInit_of_tableWidth : exec .tdInit s = respond .ok 0 (s.withTdAcc s.maskedXin) :=
  checkTableEngine_of_tableWidth hlo hdvd _

theorem exec_tdByte_of_tableWidth : exec .tdByte s = respond .ok 0 (tdStep s s.inputByte) :=
  checkTableEngine_of_tableWidth hlo hdvd _

theorem exec_tdFinal_of_tableWidth : exec .tdFinal s = respond .ok (finalize (s.tdAcc.toNat &&& s.widthMask) s) s :=
  checkTableEngine_of_tableWidth hlo hdvd _

end TableWidth

/-- Settles O10. -/
theorem tdInitSeedsTheAccumulatorWithXin : Obligations.TdInitSeedsTheAccumulatorWithXin := by
  refine ⟨encodedAs_instrOf (opcodeRow_mem .tdInit), fun s =>
    ⟨fun hlo hdvd => ?_, exec_of_w_eq_zero rfl, exec_of_width_not_table rfl⟩⟩
  rw [exec_tdInit_of_tableWidth hlo hdvd, maskedXin_eq_mod]
  rfl

/-- Settles O11. -/
theorem tdByteTakesOneTableStep : Obligations.TdByteTakesOneTableStep := by
  refine ⟨encodedAs_instrOf (opcodeRow_mem .tdByte), fun s =>
    ⟨fun hlo hdvd d hd => ?_, exec_of_w_eq_zero rfl, exec_of_width_not_table rfl⟩⟩
  rw [exec_tdByte_of_tableWidth hlo hdvd, inputByte_eq_mod, ← hd]
  rfl

/-- Settles O12. -/
theorem tdFinalReturnsTheCrcAndWritesNothing : Obligations.TdFinalReturnsTheCrcAndWritesNothing := by
  refine ⟨encodedAs_instrOf (opcodeRow_mem .tdFinal), fun s =>
    ⟨fun hlo hdvd r hr => ?_, exec_of_w_eq_zero rfl, exec_of_width_not_table rfl⟩⟩
  rw [exec_tdFinal_of_tableWidth hlo hdvd, State.widthMask, and_mask, ← hr, finalize_eq_mod]
  rfl

/-! ## The commands as transactions -/

/-- A byte of a message as an engine takes it in: reflected when the input is reflected (41_reflect.md R125). -/
def messageByte (reflectIn : Bool) (d : Nat) : Nat := if reflectIn then reflect8 d else d

/-- The accumulator after the bytes of a message, one table step each (44_tabledriven.md R191, R192). -/
def tableFeed (p w : Nat) (reflectIn : Bool) (acc : Nat) (bytes : List Nat) : Nat :=
  bytes.foldl (fun a d => tableStep p w a (messageByte reflectIn d)) acc

theorem tableFeed_lt (p : Nat) {w acc : Nat} (reflectIn : Bool) (hacc : acc < 2 ^ w) (bytes : List Nat) :
    tableFeed p w reflectIn acc bytes < 2 ^ w := by
  induction bytes generalizing acc with
  | nil => exact hacc
  | cons d ds ih => exact ih (tableStep_lt p w acc _)

/-- A byte command reads the low eight bits of the message's byte (20_memory.md R60, 41_reflect.md R125). -/
theorem inputByte_offered (s : State) {i : Instr} (d : Nat) (h : takesData i = true) :
    (s.offered (commandOf i d)).inputByte = messageByte s.ri d &&& mask 8 := by
  have hbyte : (s.offered (commandOf i d)).operandByte = d &&& mask 8 := by
    rw [State.operandByte, operand_offered s d h, and_mask_and_mask (wmax_ge s)]
  have hri : (s.offered (commandOf i d)).ri = s.ri := rfl
  rw [State.inputByte, hbyte, hri, messageByte]
  split
  · rw [reflect8, reflect8, reflect_and_mask, and_mask_of_lt (reflect_lt d 8)]
  · rfl

section TableTransactions
variable {s : State} (hlo : 8 ≤ s.width) (hdvd : s.width % 8 = 0)
include hlo hdvd

theorem transact_tdInit : transact s (commandOf .tdInit 0) = some ((s.withTdAcc s.maskedXin).settled, ⟨.ok, 0⟩) :=
  transact_commandOf rfl (exec_tdInit_of_tableWidth (s := s.offered _) hlo hdvd) rfl

theorem transact_tdByte (d : Nat) :
    transact s (commandOf .tdByte d) = some ((tdStep s (messageByte s.ri d)).settled, ⟨.ok, 0⟩) := by
  refine transact_commandOf rfl (exec_tdByte_of_tableWidth (s := s.offered _) hlo hdvd) ?_
  rw [inputByte_offered s d rfl, tdStep_eq_withTdAcc, tableStep_and_mask]
  rfl

theorem transact_tdFinal :
    transact s (commandOf .tdFinal 0) =
      some (s.settled, ⟨.ok, toValue (finalize (s.tdAcc.toNat &&& s.widthMask) s)⟩) :=
  transact_commandOf rfl (exec_tdFinal_of_tableWidth (s := s.offered _) hlo hdvd) rfl

/-- An accumulator below 2^W is answered whole (44_tabledriven.md R193). -/
theorem transact_tdFinal_withTdAcc {acc : Nat} (hacc : acc < 2 ^ s.width) :
    transact (s.withTdAcc acc) (commandOf .tdFinal 0) =
      some ((s.withTdAcc acc).settled, ⟨.ok, toValue (finalize acc s)⟩) := by
  rw [transact_tdFinal (s := s.withTdAcc acc) hlo hdvd, withTdAcc_tdAcc_toNat hacc, State.widthMask, withTdAcc_width,
    and_mask_of_lt hacc, finalize_withTdAcc]

/-- The byte commands of a message take its bytes into TD_ACC. -/
theorem transactAll_tdBytes {acc : Nat} (hacc : acc < 2 ^ s.width) (bytes : List Nat) :
    transactAll (s.withTdAcc acc).settled (bytes.map (commandOf .tdByte)) =
      some ((s.withTdAcc (tableFeed s.maskedPoly s.width s.ri acc bytes)).settled,
        List.replicate bytes.length ⟨.ok, 0⟩) := by
  induction bytes generalizing acc with
  | nil => rfl
  | cons d ds ih =>
    have hbyte := transact_tdByte (s := s.withTdAcc acc) hlo hdvd d
    rw [tdStep_eq_withTdAcc, withTdAcc_tdAcc_toNat hacc] at hbyte
    exact transactAll_cons hbyte (ih (tableStep_lt _ _ _ _))

/-- A whole message answers the output transform of the fed accumulator (44_tabledriven.md R190, R192, R193). -/
theorem lastResponse_tdMessage (bytes : List Nat) :
    lastResponse s (tdMessage bytes) =
      some ⟨.ok, toValue (finalize (tableFeed s.maskedPoly s.width s.ri s.maskedXin bytes) s)⟩ := by
  have hbytes := transactAll_tdBytes hlo hdvd (maskedXin_lt s) bytes
  have hfinal := transact_tdFinal_withTdAcc hlo hdvd (tableFeed_lt s.maskedPoly s.ri (maskedXin_lt s) bytes)
  exact lastResponse_append (transactAll_cons (transact_tdInit hlo hdvd) hbytes) (lastResponse_singleton hfinal)

end TableTransactions

/-! ## The call -/

/-- The source's `crc_table` feeds the bytes between its seed and its output transform (44_tabledriven.md R191, R193). -/
theorem crcTableDriven_eq_tableFeed (p : CrcParams) (bytes : List Nat) :
    crcTableDriven p bytes =
      crcOutput p (tableFeed (p.poly &&& mask p.width) p.width p.reflectIn (p.xorIn &&& mask p.width) bytes) := rfl

/-- Settles O47: the configuration commands, then one message on the block they leave. -/
theorem tableDrivenCallComputesCrcTable : Obligations.TableDrivenCallComputesCrcTable := by
  intro s p bytes hlo hhi hdvd
  have hwidth : (s.configuredBy p).width = p.width := configuredBy_width hhi
  refine lastResponse_append (transactAll_configCommands hhi (by omega)) ?_
  rw [lastResponse_tdMessage (by rwa [hwidth]) (by rwa [hwidth]), finalize_configuredBy hhi,
    configuredBy_maskedPoly hhi, configuredBy_maskedXin hhi, hwidth, configuredBy_ri, crcTableDriven_eq_tableFeed]

end Sys2Proof.Machine
end

section
/-! The host family (48_host_side.md): a host that withholds `rsp_ready`, and the container of the LUT emitter. -/

namespace Sys2Proof.Machine

/-! ## A host that takes no response -/

/-- An edge at which nothing of the handshake moves is skipped. -/
theorem afterEdges_cons_of_quiet {s : State} {e : Edge} (hev : (s.atEdge e).event = .quiet) (es : List Edge) :
    afterEdges s (e :: es) = afterEdges (s.atEdge e).advance es ∧
      acceptedOver s (e :: es) = acceptedOver (s.atEdge e).advance es ∧
      takenOver s (e :: es) = takenOver (s.atEdge e).advance es := by
  obtain ⟨-, -, -, -, -, hquiet⟩ := step_by_event (s.atEdge e)
  simp only [afterEdges, acceptedOver, takenOver, hquiet hev, hev, and_self]

theorem event_atEdge_of_withheld {s : State} {r : Response} {e : Edge} (hphase : s.phase = .responding r)
    (hrst : e.rst = false) (hready : e.rspReady = false) : (s.atEdge e).event = .quiet := by
  simpa [hready] using event_of_responding (s := s.atEdge e) hphase hrst

/-- Settles O54, by induction on the edges: each of them is quiet and leaves the block responding. -/
theorem withheldReadyBlocksForEver : Obligations.WithheldReadyBlocksForEver := by
  intro s r es hphase hwithheld
  induction es generalizing s with
  | nil => exact ⟨s, rfl, rsp_eq_some_iff.mpr hphase, sameRegisters_refl s, rfl, rfl⟩
  | cons e es ih =>
    obtain ⟨⟨hrst, hready⟩, hrest⟩ := List.forall_mem_cons.mp hwithheld
    obtain ⟨hafter, haccepted, htaken⟩ := afterEdges_cons_of_quiet (event_atEdge_of_withheld hphase hrst hready) es
    rw [hafter, haccepted, htaken]
    exact ih (s.atEdge e).advance hphase hrest

/-! ## The container of the LUT emitter -/

/-- The widths stand in ascending order, so the container is the first that holds the width (48_host_side.md R222). -/
theorem lutContainerBits_eq_find? (w : Nat) : lutContainerBits w = [8, 16, 32, 64].find? (w ≤ ·) := by
  simp only [lutContainerBits, List.find?_cons, List.find?_nil]
  split_ifs <;> simp [*]

theorem lutContainerBits_eq_none_iff (w : Nat) : lutContainerBits w = none ↔ 64 < w := by
  rw [lutContainerBits_eq_find?, List.find?_eq_none]
  simp only [List.forall_mem_cons, decide_eq_true_eq, List.not_mem_nil, false_imp_iff, implies_true, and_true]
  omega

/-- In an ascending list the first hit is the smallest. -/
theorem le_of_find?_eq_some {l : List Nat} {p : Nat → Bool} {n m : Nat} (hasc : l.Pairwise (· ≤ ·))
    (hn : l.find? p = some n) (hm : m ∈ l) (hp : p m = true) : n ≤ m := by
  obtain ⟨-, before, after, rfl, hmiss⟩ := List.find?_eq_some_iff_append.mp hn
  obtain hbefore | hrest := List.mem_append.mp hm
  · exact absurd (hmiss m hbefore) (by simp [hp])
  · obtain ⟨-, hasc', -⟩ := List.pairwise_append.mp hasc
    obtain rfl | hafter := List.mem_cons.mp hrest
    · exact le_rfl
    · exact List.rel_of_pairwise_cons hasc' hafter

theorem lutHexDigits_bounds (w : Nat) : w ≤ 4 * lutHexDigits w ∧ 4 * lutHexDigits w < w + 4 := by
  rw [lutHexDigits]
  omega

/-- Settles O58: the container is the first of the ascending widths that holds the width. -/
theorem lutContainerIsTheSmallestThatFits : Obligations.LutContainerIsTheSmallestThatFits := by
  refine fun w => ⟨lutContainerBits_eq_none_iff w, fun n hn => ?_, lutHexDigits_bounds w⟩
  rw [lutContainerBits_eq_find?] at hn
  have hfits : w ≤ n := by simpa using List.find?_some hn
  exact ⟨List.mem_of_find?_eq_some hn, hfits, fun m hm hwm =>
    le_of_find?_eq_some (by decide) hn hm (decide_eq_true hwm)⟩

end Sys2Proof.Machine
end

section
/-! The exceptions family (60_exceptions.md): the status codes, the first failing check, and what an error leaves alone. -/

namespace Sys2Proof.Machine

/-! ## The codes -/

theorem status_code_lt (st : Status) : st.code < 5 := by cases st <;> decide

/-- Settles O22: every code lies below 5. -/
theorem statusCodesAreZeroToFour : Obligations.StatusCodesAreZeroToFour := by
  refine ⟨rfl, rfl, rfl, rfl, rfl, fun st => ?_⟩
  have hlt := status_code_lt st
  bv_omega

/-! ## The first failing check -/

/-- A command that raises an error is answered that error with data 0, and nothing else changes (60_exceptions.md R241). -/
theorem step_of_exec_raise {s : State} {word : CmdWord} {i : Instr} {e : Status} (haccepts : Accepts s word)
    (hdecode : decode word = .ok i) (hraise : exec i s = raise e s) : step s = .next (s.answered e 0) := by
  obtain ⟨-, hnext⟩ := acceptingEdgeRunsTheDecodedInstruction s word i haccepts hdecode
  exact hnext _ hraise

/-- Settles O20: each failing check leaves the block answered with its own status, and a step has one next state. -/
theorem firstFailingCheckIsReported : Obligations.FirstFailingCheckIsReported := by
  intro s word haccepts
  obtain ⟨t, r, hstep, hphase⟩ := step_of_accept_executing (event_of_accepts haccepts)
  have reported {e : Status} (h : step s = .next (s.answered e 0)) : r.status = e := by
    obtain rfl : t = s.answered e 0 := Host.Outcome.next.inj (hstep.symm.trans h)
    obtain rfl : (⟨e, 0⟩ : Response) = r := Phase.executing.inj hphase
    rfl
  refine ⟨t, r, hstep, hphase, fun _ herror => reported (step_of_decode_error haccepts herror), fun i hdecode => ?_⟩
  have raised {e : Status} (h : exec i s = raise e s) : r.status = e :=
    reported (step_of_exec_raise haccepts hdecode h)
  refine ⟨fun harg => raised (exec_of_argumentBad harg), fun _ hneeds hw => raised ?_,
    fun _ hneeds hconf hwidth => raised ?_⟩
  · exact exec_of_w_eq_zero hneeds hw
  · exact exec_of_width_not_table hneeds hconf hwidth

/-! ## What an error leaves alone -/

/-- An accepted command answers; when it answers an error, the block is the same but for the answer. -/
theorem step_of_accept_answers {s : State} (h : s.event = .accept) :
    ∃ t r, step s = .next t ∧ t.phase = .executing r ∧ (r.status ≠ .ok → t = s.answered r.status 0) := by
  rw [step_of_accept h]
  obtain ⟨i, -, hrun⟩ | ⟨_, -, hrun⟩ := acceptCommand_cases s
  · obtain ⟨u, ⟨status, data⟩, hexec, -, herror⟩ := exec_answers i s
    refine ⟨_, ⟨status, data⟩, by rw [hrun, hexec]; rfl, rfl, fun hne => ?_⟩
    obtain ⟨rfl, rfl⟩ := herror hne
    rfl
  · exact ⟨_, ⟨.illegal, 0⟩, by rw [hrun]; rfl, rfl, fun _ => rfl⟩

/-- Settles O21. -/
theorem errorsWriteNothingAndAnswerZero : Obligations.ErrorsWriteNothingAndAnswerZero := by
  intro s word haccepts
  obtain ⟨t, r, hstep, hphase, herror⟩ := step_of_accept_answers (event_of_accepts haccepts)
  refine ⟨t, r, hstep, hphase, fun hne => ?_⟩
  obtain rfl := herror hne
  have hresponse : ⟨r.status, 0⟩ = r := Phase.executing.inj hphase
  exact ⟨(congrArg Response.data hresponse).symm, sameRegisters_refl s⟩

end Sys2Proof.Machine
end

section
/-! The reset family (70_reset_and_hazards.md): what reset clears, and that every edge has a next state. -/

namespace Sys2Proof.Machine

/-- Reset goes before everything else (70_reset_and_hazards.md R270). -/
theorem step_of_reset {s : State} (h : s.edge.rst = true) : step s = .next s.resetEdge.advance := by
  obtain ⟨hreset, -⟩ := step_by_event s
  exact hreset (by rw [State.event, if_pos h])

theorem step_of_inReset {s : State} (hphase : s.phase = .inReset) (hrst : s.edge.rst = false) :
    step s = .next s.becomeIdle.advance := by
  obtain ⟨-, hleave, -⟩ := step_by_event s
  exact hleave (by simp [State.event, hrst, hphase])

/-- Settles O51: the reset edge leaves the reset state of the block's parameters, which holds no response. -/
theorem resetClearsRegistersAndCancelsTheCommand : Obligations.ResetClearsRegistersAndCancelsTheCommand := by
  refine ⟨fun s hrst => ⟨step_of_reset hrst, fun t ht => ?_⟩, fun s => step_of_inReset⟩
  obtain rfl : s.resetEdge.advance = t := Host.Outcome.next.inj ((step_of_reset hrst).symm.trans ht)
  exact ⟨rfl, rfl, rfl⟩

/-- Settles O23. -/
theorem everyEdgeHasANextState : Obligations.EveryEdgeHasANextState := fun s =>
  let ⟨t, hstep, _⟩ := step_leadsTo s
  ⟨t, hstep⟩

end Sys2Proof.Machine
end

section
/-! The laws of reflection (41_reflect.md, section 3) and the three-step form of the byte reversal (section 1). -/

namespace Sys2Proof.Machine

/-- Bit i of the reflection's reflection is bit w-1-(w-1-i) of x. -/
theorem reflect_reflect (x w : Nat) : reflect (reflect x w) w = x % 2 ^ w := by
  refine Nat.eq_of_testBit_eq fun i => ?_
  rw [testBit_reflect, testBit_reflect, Nat.testBit_mod_two_pow]
  by_cases hi : i < w
  · have hback : w - 1 - (w - 1 - i) = i := by omega
    have hlt : w - 1 - i < w := by omega
    simp [hi, hback, hlt]
  · simp [hi]

theorem reflect_zero (w : Nat) : reflect 0 w = 0 :=
  Nat.eq_of_testBit_eq fun i => by simp [testBit_reflect]

/-- Settles O33. -/
theorem reflectionLaws : Obligations.ReflectionLaws := fun x w =>
  ⟨reflect_reflect x w, reflect_zero w, rfl, reflect_lt x w, by rw [← and_mask, reflect_and_mask]⟩

/-- One step of the three-step form: the bits under the mask and those n places above them change places
(41_reflect.md, section 1). -/
def swapStep (m n x : Nat) : Nat := ((x &&& m) <<< n) ||| ((x >>> n) &&& m)

theorem testBit_swapStep (m n x i : Nat) :
    (swapStep m n x).testBit i =
      (decide (n ≤ i) && (x.testBit (i - n) && m.testBit (i - n)) || x.testBit (n + i) && m.testBit i) := by
  rw [swapStep, Nat.testBit_or, Nat.testBit_shiftLeft, Nat.testBit_and, Nat.testBit_and, Nat.testBit_shiftRight]

/-- Single bits, then pairs, then nibbles change places, which takes bit i to place 7-i. -/
theorem swapStep_eq_reflect8 (x : Nat) :
    swapStep 0x0F 4 (swapStep 0x33 2 (swapStep 0x55 1 x)) &&& mask 8 = reflect8 x := by
  refine Nat.eq_of_testBit_eq fun i => ?_
  rw [reflect8, testBit_reflect, testBit_and_mask]
  by_cases hi : i < 8
  · simp only [testBit_swapStep]
    interval_cases i <;> simp [Nat.testBit]
  · simp [hi]

/-- Settles O34: each line of the form is one exchange. -/
theorem threeStepByteReversalIsReflect8 : Obligations.ThreeStepByteReversalIsReflect8 := by
  rintro x - a b rfl rfl
  exact swapStep_eq_reflect8 x

end Sys2Proof.Machine
end

section
/-! `koopman` (48_host_side.md R220, R221): the width and the polynomial it gives, and what the host refuses. -/

namespace Sys2Proof.Machine

theorem koopman_width {k : Nat} (h : k ≠ 0) : (koopman k).1 = Nat.log2 k + 1 := if_neg h

/-- The width is the place above the highest set bit (48_host_side.md R220). -/
theorem koopman_width_bounds {k : Nat} (h : k ≠ 0) :
    2 ^ ((koopman k).1 - 1) ≤ k ∧ k < 2 ^ (koopman k).1 := by
  rw [koopman_width h]
  exact ⟨Nat.log2_self_le h, Nat.lt_log2_self⟩

/-- Of the coefficients one place up, with the constant term, the polynomial lacks just the top term (48_host_side.md R220). -/
theorem koopman_polynomial {k : Nat} (h : k ≠ 0) :
    (koopman k).2 < 2 ^ (koopman k).1 ∧ (koopman k).2 + 2 ^ (koopman k).1 = 2 * k + 1 := by
  obtain ⟨hlo, hhi⟩ := koopman_width_bounds h
  have hpoly : (koopman k).2 = (2 * k + 1) ^^^ 2 ^ (koopman k).1 := by
    rw [← Nat.one_shiftLeft]
    exact congrArg (· ^^^ 1 <<< (koopman k).1) (shiftLeft_or_bit k true)
  have hpos : (koopman k).1 ≠ 0 := by rw [koopman_width h]; exact Nat.succ_ne_zero _
  generalize (koopman k).1 = n at *
  have htop : 2 * 2 ^ (n - 1) = 2 ^ n := mul_pow_sub_one hpos 2
  have hrest : 2 * k + 1 - 2 ^ n < 2 ^ n := by omega
  have hsplit : 2 * k + 1 = 2 ^ n ^^^ (2 * k + 1 - 2 ^ n) := by rw [← two_pow_add_eq_xor hrest]; omega
  rw [Nat.xor_comm, hsplit, Nat.xor_xor_cancel_left] at hpoly
  omega

theorem hostKoopman_eq_none_iff (c : Config) (k : Nat) :
    hostKoopman c k = none ↔ k = 0 ∨ c.wmax < (koopman k).1 := by
  simp [hostKoopman, or_iff_not_imp_left]

theorem eq_koopman_of_hostKoopman {c : Config} {k : Nat} {wp : Nat × Nat} (h : hostKoopman c k = some wp) :
    wp = koopman k := by
  rw [hostKoopman] at h
  split at h
  · cases h
  · exact (Option.some.inj h).symm

/-- Settles O57. -/
theorem koopmanGivesWidthAndImplicitPolynomial : Obligations.KoopmanGivesWidthAndImplicitPolynomial := by
  refine ⟨fun k hk => ?_, fun c k => ⟨hostKoopman_eq_none_iff c k, fun wp => eq_koopman_of_hostKoopman⟩⟩
  have hne : k ≠ 0 := Nat.one_le_iff_ne_zero.mp hk
  obtain ⟨hlo, hhi⟩ := koopman_width_bounds hne
  exact ⟨hlo, hhi, koopman_polynomial hne⟩

end Sys2Proof.Machine
end

section
/-! The registers a command reads and writes (10_state.md R34), and which commands are idempotent (20_memory.md, section 4). -/

namespace Sys2Proof.Machine

/-! ## The registers a command writes -/

/-- A command's effect leaves every register outside its "w" entries (10_state.md R34). -/
theorem Effect.reg_eq_of_not_written {s t : State} {i : Instr} (he : Effect s i t) {r : Reg}
    (hr : r ∉ registersWritten i) : t.reg r = s.reg r := by
  cases he with
  | none => rfl
  | _ => cases r <;> simp [registersWritten, State.reg, State.width] at hr ⊢

/-- A command changes no register outside its "w" entries, and one that answers an error changes none. -/
theorem exec_frame {i : Instr} {s t : State} (h : exec i s = .next t) :
    t.cfg = s.cfg ∧ t.inputs = s.inputs ∧ (∀ r, r ∉ registersWritten i → t.reg r = s.reg r) ∧
      ∀ a, t.phase = .executing a → a.status ≠ .ok → ∀ r, t.reg r = s.reg r := by
  obtain ⟨u, a, hexec, heffect, herror⟩ := exec_answers i s
  obtain rfl : { u with phase := .executing a } = t := Host.Outcome.next.inj (hexec.symm.trans h)
  obtain ⟨hcfg, hinputs⟩ := heffect.interface
  have hreg (r : Reg) : ({ u with phase := .executing a } : State).reg r = u.reg r := by cases r <;> rfl
  refine ⟨hcfg, hinputs, fun r hr => (hreg r).trans (heffect.reg_eq_of_not_written hr), fun b hb hne r => ?_⟩
  obtain rfl : a = b := Phase.executing.inj hb
  obtain ⟨-, rfl⟩ := herror hne
  exact hreg r

/-! ## The registers a command reads -/

/-- Two outcomes of a command, from s and from s': the same answer, and each register the command writes is the same after
both or written in neither (10_state.md R34). -/
def AnswerAlike (i : Instr) (s s' : State) (result result' : Result) : Prop :=
  ∃ t t', result = .next t ∧ result' = .next t' ∧ t'.inFlight = t.inFlight ∧
    ∀ r ∈ registersWritten i, t'.reg r = t.reg r ∨ (t'.reg r = s'.reg r ∧ t.reg r = s.reg r)

section AnswerAlike
variable {i : Instr} {s s' : State}

theorem answerAlike_raise (e : Status) : AnswerAlike i s s' (raise e s) (raise e s') :=
  ⟨_, _, rfl, rfl, rfl, fun r _ => .inr (by cases r <;> exact ⟨rfl, rfl⟩)⟩

theorem answerAlike_respond {v v' : Nat} {t t' : State} (hv : v' = v) (h : ∀ r ∈ registersWritten i, t'.reg r = t.reg r) :
    AnswerAlike i s s' (respond .ok v t) (respond .ok v' t') := by
  subst hv
  refine ⟨_, _, rfl, rfl, rfl, fun r hr => .inl ?_⟩
  have hsame := h r hr
  cases r <;> exact hsame

/-- A check that both states pass or both fail. -/
theorem answerAlike_ite {c c' : Bool} {e : Status} {run run' : Result} (hc : c' = c)
    (h : AnswerAlike i s s' run run') :
    AnswerAlike i s s' (if c then run else raise e s) (if c' then run' else raise e s') := by
  subst hc
  cases c'
  · exact answerAlike_raise e
  · exact h

end AnswerAlike

theorem bit_inj : ∀ {b c : Bool}, bit b = bit c → b = c := by decide

section Congr
variable {s s' : State}

theorem configured_congr (hw : s'.width = s.width) : s'.configured = s.configured := by
  rw [State.configured, State.configured, hw]

theorem tableWidth_congr (hw : s'.width = s.width) : s'.tableWidth = s.tableWidth := by
  rw [State.tableWidth, State.tableWidth, hw]

theorem operand_congr (hcfg : s'.cfg = s.cfg) (hinputs : s'.inputs = s.inputs) : s'.operand = s.operand := by
  rw [State.operand, State.operand, State.edge, State.edge, State.wmax, State.wmax, hcfg, hinputs]

theorem inputByte_congr (hoperand : s'.operand = s.operand) (hri : s'.ri = s.ri) : s'.inputByte = s.inputByte := by
  rw [inputByte_eq_mod, inputByte_eq_mod, hoperand, hri]

theorem maskedPoly_congr (hw : s'.width = s.width) (hpoly : s'.poly.toNat = s.poly.toNat) :
    s'.maskedPoly = s.maskedPoly := by
  rw [maskedPoly_eq_mod, maskedPoly_eq_mod, hw, hpoly]

theorem maskedXin_congr (hw : s'.width = s.width) (hxin : s'.xin.toNat = s.xin.toNat) : s'.maskedXin = s.maskedXin := by
  rw [maskedXin_eq_mod, maskedXin_eq_mod, hw, hxin]

theorem finalize_congr (hw : s'.width = s.width) (hro : s'.ro = s.ro) (hxout : s'.xout.toNat = s.xout.toNat) {r r' : Nat}
    (hr : r' = r) : finalize r' s' = finalize r s := by
  rw [finalize_eq_mod, finalize_eq_mod, hw, hro, hxout, hr]

theorem flush_congr (hw : s'.width = s.width) (hpoly : s'.maskedPoly = s.maskedPoly)
    (hacc : s'.bsAcc.toNat = s.bsAcc.toNat) : flush s' = flush s := by
  rw [flush_eq_foldl, flush_eq_foldl, hw, hpoly, hacc]

/-- Feeding bits reads W, P, XI, WMAX and its own two registers (43_bitserial.md R161). -/
theorem bsFeed_congr (hwmax : s'.wmax = s.wmax) (hw : s'.width = s.width) (hpoly : s'.maskedPoly = s.maskedPoly)
    (hxin : s'.maskedXin = s.maskedXin) (hacc : s'.bsAcc.toNat = s.bsAcc.toNat) (hcnt : s'.bsCnt.toNat = s.bsCnt.toNat)
    (bits : List Bool) :
    (bsFeed s' bits).bsAcc.toNat = (bsFeed s bits).bsAcc.toNat ∧
      (bsFeed s' bits).bsCnt.toNat = (bsFeed s bits).bsCnt.toNat := by
  induction bits generalizing s s' with
  | nil => exact ⟨hacc, hcnt⟩
  | cons b bs ih =>
    refine ih (s := bsStep s b) (s' := bsStep s' b) hwmax hw hpoly hxin ?_ ?_
    · rw [bsStep_bsAcc_toNat, bsStep_bsAcc_toNat, hw, hpoly, hxin, hacc, hcnt]
    · rw [bsStep_bsCnt_toNat, bsStep_bsCnt_toNat, hwmax, hcnt]

theorem readRegister_congr (hcfg : s'.cfg = s.cfg) (h : ∀ r, s'.reg r = s.reg r) (idx : Nat) :
    s'.readRegister idx = s.readRegister idx := by
  have hwmax : s'.wmax = s.wmax := congrArg Config.wmax hcfg
  have hw : s'.width = s.width := h .w
  have hri : bit s'.ri = bit s.ri := h .ri
  have hro : bit s'.ro = bit s.ro := h .ro
  have himage : s'.configImage = s.configImage := by
    rw [State.configImage, State.configImage, hw, hri, hro, hwmax]
  unfold State.readRegister
  split
  · rw [himage]
  · exact congrArg some (h .poly)
  · exact congrArg some (h .xin)
  · exact congrArg some (h .xout)
  · exact congrArg some (h .bsAcc)
  · exact congrArg some (h .bsCnt)
  · exact congrArg some (h .tdAcc)
  · rw [hwmax]
  · rfl

end Congr

/-- A command that feeds bits writes the engine's two registers (10_state.md R34). -/
theorem bsFeed_written_congr {s s' : State} {bits : List Bool} {i : Instr} (hi : registersWritten i = [.bsAcc, .bsCnt])
    (h : (bsFeed s' bits).bsAcc.toNat = (bsFeed s bits).bsAcc.toNat ∧
      (bsFeed s' bits).bsCnt.toNat = (bsFeed s bits).bsCnt.toNat) :
    ∀ r ∈ registersWritten i, (bsFeed s' bits).reg r = (bsFeed s bits).reg r := by
  rw [hi]
  simpa [State.reg] using h

/-- A command's answer and what it writes depend on no register outside its "r" entries (10_state.md R34). -/
theorem exec_answerAlike (i : Instr) {s s' : State} (hcfg : s'.cfg = s.cfg) (hinputs : s'.inputs = s.inputs)
    (hread : ∀ r ∈ registersRead i, s'.reg r = s.reg r) : AnswerAlike i s s' (exec i s) (exec i s') := by
  have hwmax : s'.wmax = s.wmax := congrArg Config.wmax hcfg
  have hoperand := operand_congr hcfg hinputs
  have hlegal (wf : Nat) : s'.legalWidthField wf = s.legalWidthField wf := by
    rw [State.legalWidthField, State.legalWidthField, hwmax]
  cases i with
  | nop => exact answerAlike_respond rfl (List.forall_mem_nil _)
  | cfg wf rif rof =>
    exact answerAlike_ite (hlegal wf) (answerAlike_respond rfl
      (by simp [registersWritten, State.reg, State.width, hoperand]))
  | setxin => exact answerAlike_respond rfl (by simp [registersWritten, State.reg, hoperand])
  | setxout => exact answerAlike_respond rfl (by simp [registersWritten, State.reg, hoperand])
  | refl wf => exact answerAlike_ite (hlegal wf) (answerAlike_respond (by rw [hoperand]) (List.forall_mem_nil _))
  | refl8 => exact answerAlike_respond (by rw [State.operandByte, hoperand]; rfl) (List.forall_mem_nil _)
  | rdreg idx =>
    have hall (r : Reg) : s'.reg r = s.reg r := hread r (by cases r <;> simp [registersRead])
    refine answerAlike_ite rfl ?_
    rw [readRegister_congr hcfg hall]
    cases s.readRegister idx with
    | none => exact answerAlike_raise _
    | some v => exact answerAlike_respond rfl (List.forall_mem_nil _)
  | bsInit =>
    have hw : s'.width = s.width := hread .w (by simp [registersRead])
    exact answerAlike_ite (configured_congr hw) (answerAlike_respond rfl (by simp [registersWritten, State.reg]))
  | bsByte =>
    simp only [registersRead, List.forall_mem_cons, State.reg] at hread
    obtain ⟨hw, hri, hpoly, hxin, hacc, hcnt, -⟩ := hread
    have hbyte := inputByte_congr hoperand (bit_inj hri)
    refine answerAlike_ite (configured_congr hw) (answerAlike_respond rfl ?_)
    rw [hbyte]
    exact bsFeed_written_congr rfl
      (bsFeed_congr hwmax hw (maskedPoly_congr hw hpoly) (maskedXin_congr hw hxin) hacc hcnt _)
  | bsBit =>
    simp only [registersRead, List.forall_mem_cons, State.reg] at hread
    obtain ⟨hw, hpoly, hxin, hacc, hcnt, -⟩ := hread
    refine answerAlike_ite (configured_congr hw) (answerAlike_respond rfl ?_)
    rw [State.operandBit, State.operandBit, hoperand]
    exact bsFeed_written_congr (bits := [_]) rfl
      (bsFeed_congr hwmax hw (maskedPoly_congr hw hpoly) (maskedXin_congr hw hxin) hacc hcnt _)
  | bsFinal =>
    simp only [registersRead, List.forall_mem_cons, State.reg] at hread
    obtain ⟨hw, hro, hpoly, hxout, hacc, -⟩ := hread
    have hflush := flush_congr hw (maskedPoly_congr hw hpoly) hacc
    exact answerAlike_ite (configured_congr hw)
      (answerAlike_respond (finalize_congr hw (bit_inj hro) hxout hflush) (List.forall_mem_nil _))
  | tdInit =>
    simp only [registersRead, List.forall_mem_cons, State.reg] at hread
    obtain ⟨hw, hxin, -⟩ := hread
    exact answerAlike_ite (configured_congr hw) (answerAlike_ite (tableWidth_congr hw) (answerAlike_respond rfl
      (by simp [registersWritten, State.reg, maskedXin_congr hw hxin])))
  | tdByte =>
    simp only [registersRead, List.forall_mem_cons, State.reg] at hread
    obtain ⟨hw, hri, hpoly, hacc, -⟩ := hread
    have hbyte := inputByte_congr hoperand (bit_inj hri)
    refine answerAlike_ite (configured_congr hw) (answerAlike_ite (tableWidth_congr hw) (answerAlike_respond rfl ?_))
    rw [tdStep_eq_withTdAcc, tdStep_eq_withTdAcc, hbyte, hw, maskedPoly_congr hw hpoly, hacc]
    simp [registersWritten, State.reg, State.withTdAcc]
  | tdFinal =>
    simp only [registersRead, List.forall_mem_cons, State.reg] at hread
    obtain ⟨hw, hro, hxout, hacc, -⟩ := hread
    have hmasked : s'.tdAcc.toNat &&& s'.widthMask = s.tdAcc.toNat &&& s.widthMask := by
      rw [State.widthMask, State.widthMask, hw, hacc]
    exact answerAlike_ite (configured_congr hw) (answerAlike_ite (tableWidth_congr hw)
      (answerAlike_respond (finalize_congr hw (bit_inj hro) hxout hmasked) (List.forall_mem_nil _)))
  | tblRd idx =>
    simp only [registersRead, List.forall_mem_cons, State.reg] at hread
    obtain ⟨hw, hpoly, -⟩ := hread
    exact answerAlike_ite (configured_congr hw)
      (answerAlike_respond (by rw [hw, maskedPoly_congr hw hpoly]) (List.forall_mem_nil _))

/-- Settles O28. -/
theorem commandsReadAndWriteOnlyTheirRegisters : Obligations.CommandsReadAndWriteOnlyTheirRegisters :=
  ⟨fun _ _ _ => exec_frame, fun i _ _ => exec_answerAlike i⟩

/-! ## Idempotency -/

theorem bsFeed_withPhase (s : State) (p : Phase) (bits : List Bool) :
    bsFeed { s with phase := p } bits = { bsFeed s bits with phase := p } := by
  induction bits generalizing s with
  | nil => rfl
  | cons b bs ih => exact ih (bsStep s b)

/-- A command overwrites the phase and does not read it. -/
theorem exec_withPhase (i : Instr) (s : State) (p : Phase) : exec i { s with phase := p } = exec i s := by
  cases i with
  | rdreg idx =>
    have hread : ({ s with phase := p } : State).readRegister idx = s.readRegister idx := rfl
    rw [exec, exec, execRdreg, execRdreg, hread]
    cases s.readRegister idx <;> rfl
  | bsByte =>
    have hrun (bits : List Bool) : respond .ok 0 (bsFeed { s with phase := p } bits) = respond .ok 0 (bsFeed s bits) := by
      rw [bsFeed_withPhase]; rfl
    exact congrArg (fun run => checkConfigured s run) (hrun (byteBits s.inputByte))
  | _ => rfl

/-- On its own effect a command has the meaning it had, but for the message steps (20_memory.md, section 4). -/
theorem Effect.exec_eq {s t : State} {i : Instr} (he : Effect s i t) (h : i ∉ [Instr.bsByte, .bsBit, .tdByte]) :
    exec i t = exec i s := by
  cases he with
  | none | setxin | setxout => rfl
  | cfg wf rif rof hlo hhi =>
    rw [exec_cfg_of_legal (s := s) rif rof hlo hhi]
    exact exec_cfg_of_legal rif rof hlo hhi
  | bsInit hconf =>
    rw [exec_bsInit_of_configured (s := s) hconf]
    exact exec_bsInit_of_configured (s := s.bsStarted) hconf
  | tdInit htable =>
    obtain ⟨hlo, hdvd⟩ := htable
    rw [exec_tdInit_of_tableWidth (s := s) hlo hdvd]
    exact exec_tdInit_of_tableWidth (s := s.withTdAcc _) hlo hdvd
  | bsByte | bsBit | tdByte => simp at h

theorem exec_twice {i : Instr} (s : State) (h : i ∉ [Instr.bsByte, .bsBit, .tdByte]) :
    ∃ t, exec i s = .next t ∧ exec i t = .next t := by
  obtain ⟨u, r, hexec, heffect, -⟩ := exec_answers i s
  exact ⟨_, hexec, by rw [exec_withPhase, heffect.exec_eq h, hexec]⟩

/-- A command without "w" entries has no effect. -/
theorem Effect.eq_of_writes_nothing {s t : State} {i : Instr} (he : Effect s i t) (h : registersWritten i = []) :
    t = s := by
  cases he with
  | none => rfl
  | _ => cases h

theorem sameRegisters_of_writes_nothing {i : Instr} {s t : State} (h : registersWritten i = [])
    (hexec : exec i s = .next t) : SameRegisters s t := by
  obtain ⟨u, r, hexec', heffect, -⟩ := exec_answers i s
  obtain rfl : { u with phase := .executing r } = t := Host.Outcome.next.inj (hexec'.symm.trans hexec)
  obtain rfl := heffect.eq_of_writes_nothing h
  exact sameRegisters_refl u

/-- A block in the middle of a message at W = 8, whose host drives the byte 0 at every edge. -/
def midMessage : State := { State.reset with w := 8, poly := 7, tdAcc := 1 }

/-- A second message step moves on from the first: the counter, or the table engine's accumulator, changes again. -/
theorem messageStep_not_idempotent : ∀ i ∈ [Instr.bsByte, .bsBit, .tdByte],
    ∃ s t u, exec i s = .next t ∧ exec i t = .next u ∧ ¬SameRegisters t u := by
  have hconf : midMessage.width ≠ 0 := by decide
  have htable : 8 ≤ midMessage.width ∧ midMessage.width % 8 = 0 := by decide
  obtain ⟨hlo, hdvd⟩ := htable
  simp only [List.forall_mem_cons]
  refine ⟨?_, ?_, ?_, List.forall_mem_nil _⟩
  · exact ⟨midMessage, _, _, exec_bsByte_of_configured hconf, exec_bsByte_of_configured hconf, by decide⟩
  · exact ⟨midMessage, _, _, exec_bsBit_of_configured hconf, exec_bsBit_of_configured hconf, by decide⟩
  · exact ⟨midMessage, _, _, exec_tdByte_of_tableWidth hlo hdvd, exec_tdByte_of_tableWidth hlo hdvd, by decide⟩

/-- Settles O31. -/
theorem repeatedCommandsAreIdempotentExceptMessageSteps : Obligations.RepeatedCommandsAreIdempotentExceptMessageSteps :=
  ⟨fun _ => exec_twice, fun _ _ _ => sameRegisters_of_writes_nothing, messageStep_not_idempotent⟩

end Sys2Proof.Machine
end

section
/-! The bit-serial engine bit by bit (43_bitserial.md): a byte as eight `BS_BIT` commands, and the parity check of width 1. -/

namespace Sys2Proof.Machine

/-! ## A byte as eight bits -/

/-- `BS_BIT` with a bit as its data operand takes in that bit (43_bitserial.md R165). -/
theorem transact_bsBit {s : State} (hconf : s.width ≠ 0) (b : Bool) :
    transact s (commandOf .bsBit (bit b)) = some ((bsStep s b).settled, ⟨.ok, 0⟩) := by
  have hbit : (s.offered (commandOf .bsBit (bit b))).operandBit = b := by
    have hpos : 0 < s.wmax := Nat.zero_lt_of_lt (wmax_ge s)
    rw [State.operandBit, operand_offered s _ rfl, testBit_and_mask, testBit_bit]
    simp [hpos]
  refine transact_commandOf rfl (exec_bsBit_of_configured (s := s.offered _) hconf) ?_
  rw [hbit]
  rfl

/-- The bit commands of a message take in its bits (43_bitserial.md R165). -/
theorem transactAll_bsBits {s : State} (hconf : s.width ≠ 0) (bits : List Bool) :
    transactAll s.settled (bits.map fun b => commandOf .bsBit (bit b)) =
      some ((bsFeed s bits).settled, List.replicate bits.length ⟨.ok, 0⟩) := by
  induction bits generalizing s with
  | nil => rfl
  | cons b bs ih => exact transactAll_cons (transact_bsBit hconf b) (ih (s := bsStep s b) hconf)

/-- Settles O42: both feed the bits of the byte from the top. -/
theorem eightBitCommandsEqualOneByteCommand : Obligations.EightBitCommandsEqualOneByteCommand := by
  intro s d hri hconf
  have hwidth := width_ne_zero hconf
  have hbyte := transact_bsByte hwidth d
  rw [hri, if_neg Bool.false_ne_true] at hbyte
  exact ⟨_, _, _, _, transactAll_bsBits hwidth (byteBits d), hbyte, sameRegisters_refl _, rfl,
    fun a ha => List.eq_of_mem_replicate ha⟩

/-! ## Width 1 -/

/-- At width 1 the bit that leaves decides alone whether P is added (43_bitserial.md R161). -/
theorem shiftIn_width_one (p acc : Nat) (b : Bool) :
    shiftIn p 1 acc b = bit (b ^^ (acc.testBit 0 && p.testBit 0)) := by
  refine Nat.eq_of_testBit_eq fun i => ?_
  rw [testBit_shiftIn _ _ _ _ _ le_rfl, testBit_bit]
  cases i <;> simp

theorem bit_xor (b c : Bool) : bit (b ^^ c) = bit b ^^^ bit c := by
  cases b <;> cases c <;> rfl

theorem bit_testBit_zero {n : Nat} (h : n < 2) : bit (n.testBit 0) = n := by
  interval_cases n <;> rfl

/-- With P = 1 the accumulator keeps the parity (43_bitserial.md R172). -/
theorem shiftIn_width_one_of_odd {p acc : Nat} (hp : p % 2 = 1) (hacc : acc < 2) (b : Bool) :
    shiftIn p 1 acc b = acc ^^^ bit b := by
  have hodd : p.testBit 0 = true := by rw [Nat.testBit_zero, hp]; rfl
  rw [shiftIn_width_one, hodd, Bool.and_true, bit_xor, bit_testBit_zero hacc, Nat.xor_comm]

/-- The parity of the ones among the bits. -/
def parity (bits : List Bool) : Nat := (bits.filter id).length % 2

theorem parity_cons (b : Bool) (bits : List Bool) : parity (b :: bits) = bit b ^^^ parity bits := by
  cases b with
  | false => simp [parity]
  | true =>
    have hone : parity (true :: bits) = (parity bits + 1) % 2 := by simp [parity]
    obtain hpar | hpar : parity bits = 0 ∨ parity bits = 1 := Nat.mod_two_eq_zero_or_one _ <;> rw [hone, hpar] <;> rfl

theorem foldl_shiftIn_width_one {p acc : Nat} (hp : p % 2 = 1) (hacc : acc < 2) (bits : List Bool) :
    bits.foldl (shiftIn p 1) acc = acc ^^^ parity bits := by
  induction bits generalizing acc with
  | nil => exact (Nat.xor_zero acc).symm
  | cons b bs ih =>
    have hstep := shiftIn_width_one_of_odd hp hacc b
    rw [List.foldl_cons, ih (shiftIn_lt ..), hstep, parity_cons, Nat.xor_assoc]

theorem parity_reverse (bits : List Bool) : parity bits.reverse = parity bits := by
  rw [parity, parity, List.filter_reverse, List.length_reverse]

/-- Reflecting a byte reverses its bits (41_reflect.md R121). -/
theorem byteBits_reflect8 (d : Nat) : byteBits (reflect8 d) = (byteBits d).reverse := by
  have hbit (k : Nat) : (reflect8 d).testBit k = (decide (k < 8) && d.testBit (7 - k)) := testBit_reflect d 8 k
  simp only [byteBits, List.map_cons, List.map_nil, hbit]
  rfl

theorem parity_messageByte (reflectIn : Bool) (d : Nat) :
    parity (byteBits (messageByte reflectIn d)) = parity (byteBits d) := by
  cases reflectIn with
  | false => rfl
  | true => exact (congrArg parity (byteBits_reflect8 d)).trans (parity_reverse _)

section WidthOne
variable {s : State} (hwidth : s.width = 1)
include hwidth

theorem maskedPoly_width_one : s.maskedPoly = s.poly.toNat % 2 := by rw [maskedPoly_eq_mod, hwidth]; rfl
theorem maskedXin_width_one : s.maskedXin = s.xin.toNat % 2 := by rw [maskedXin_eq_mod, hwidth]; rfl

theorem flush_width_one : flush s = shiftIn s.maskedPoly 1 s.bsAcc.toNat false := by
  rw [flush_eq_foldl, hwidth]
  rfl

/-- Reflection at width 1 changes nothing. -/
theorem finalize_width_one {r : Nat} (hr : r < 2) : finalize r s = r ^^^ s.xout.toNat % 2 := by
  have hreflect : reflect r 1 = r := by interval_cases r <;> rfl
  rw [finalize_eq_mod, hwidth, hreflect, ite_self]
  rfl

theorem bsStep_width_one (hodd : s.poly.toNat % 2 = 1) (hacc : s.bsAcc.toNat < 2) (b : Bool) :
    (bsStep s b).bsAcc.toNat = s.bsAcc.toNat ^^^ bit b ^^^ (if s.bsCnt = 0 then s.xin.toNat % 2 else 0) := by
  have hcnt : s.bsCnt.toNat + 1 = 1 ↔ s.bsCnt = 0 := by
    rw [Nat.succ_inj, ← BitVec.toNat_inj]; rfl
  have hpoly : s.maskedPoly % 2 = 1 := by rw [maskedPoly_width_one hwidth, Nat.mod_mod, hodd]
  rw [bsStep_bsAcc_toNat, hwidth, shiftIn_width_one_of_odd hpoly hacc, maskedXin_width_one hwidth]
  simp only [hcnt]
  split
  · rfl
  · rw [Nat.xor_zero]

theorem flush_width_one_of_odd (hodd : s.poly.toNat % 2 = 1) (hacc : s.bsAcc.toNat < 2) : flush s = s.bsAcc.toNat := by
  have hpoly : s.maskedPoly % 2 = 1 := by rw [maskedPoly_width_one hwidth, Nat.mod_mod, hodd]
  rw [flush_width_one hwidth, shiftIn_width_one_of_odd hpoly hacc, bit_false, Nat.xor_zero]

/-- With P = 0 the augmentation drives every bit out (43_bitserial.md R172). -/
theorem flush_width_one_of_even (heven : s.poly.toNat % 2 = 0) : flush s = 0 := by
  rw [flush_width_one hwidth, maskedPoly_width_one hwidth, heven, shiftIn_width_one]
  simp

/-- A message leaves the parity of its bits, with the XOR-in after the first of them (43_bitserial.md R172). -/
theorem bsFeed_bsStarted_width_one (hodd : s.poly.toNat % 2 = 1) {bits : List Bool} (hne : bits ≠ []) :
    (bsFeed s.bsStarted bits).bsAcc.toNat = parity bits ^^^ s.xin.toNat % 2 := by
  have hstarted : s.bsStarted.width = 1 := hwidth
  have hfits : s.bsStarted.width ≤ s.bsStarted.wmax := by have := wmax_ge s.bsStarted; omega
  have hpoly : s.bsStarted.maskedPoly % 2 = 1 := by rw [maskedPoly_width_one hstarted, Nat.mod_mod]; exact hodd
  obtain ⟨b, bs, rfl⟩ := List.exists_cons_of_ne_nil hne
  have hacc := bsFeed_bsAcc_of_start hfits (bits := b :: bs) rfl hstarted.ge
  have hfirst : bit b ^^^ s.xin.toNat % 2 < 2 := Nat.xor_lt_two_pow (n := 1) (bit_lt b) (Nat.mod_lt _ Nat.two_pos)
  have hfeed : ((b :: bs).take 1).foldl (shiftIn s.bsStarted.maskedPoly 1) s.bsStarted.bsAcc.toNat = bit b :=
    (shiftIn_width_one_of_odd hpoly Nat.two_pos b).trans (Nat.zero_xor _)
  have hxin : s.bsStarted.maskedXin = s.xin.toNat % 2 := maskedXin_width_one hstarted
  rw [hstarted, if_pos (by simp), hxin, hfeed, foldl_shiftIn_width_one hpoly hfirst] at hacc
  rw [hacc, parity_cons, Nat.xor_right_comm]
  rfl

end WidthOne

theorem messageBits_singleton (reflectIn : Bool) (d : Nat) :
    messageBits reflectIn [d] = byteBits (messageByte reflectIn d) :=
  List.append_nil _

/-- At width 1 and P = 1 a message of one byte answers its parity (43_bitserial.md R172). -/
theorem lastResponse_bsMessage_width_one_of_odd {s : State} (hwidth : s.width = 1) (hodd : s.poly.toNat % 2 = 1)
    (d : Nat) :
    lastResponse s (bsMessage [d]) =
      some ⟨.ok, toValue (parity (byteBits d) ^^^ s.xin.toNat % 2 ^^^ s.xout.toNat % 2)⟩ := by
  have hconf : s.width ≠ 0 := by omega
  have hne : byteBits (messageByte s.ri d) ≠ [] := List.cons_ne_nil _ _
  have hacc := bsFeed_bsStarted_width_one hwidth hodd hne
  rw [parity_messageByte] at hacc
  have hlt : parity (byteBits d) ^^^ s.xin.toNat % 2 < 2 :=
    Nat.xor_lt_two_pow (n := 1) (Nat.mod_lt _ Nat.two_pos) (Nat.mod_lt _ Nat.two_pos)
  have hflush := flush_width_one_of_odd (s := bsFeed s.bsStarted (byteBits (messageByte s.ri d)))
    ((bsFeed_width ..).trans hwidth) (by rw [bsFeed_poly]; exact hodd) (hacc.trans_lt hlt)
  rw [lastResponse_bsMessage hconf, messageBits_singleton, hflush, hacc, finalize_width_one hwidth hlt]

/-- At width 1 and P = 0 every message answers the XOR-out (43_bitserial.md R172). -/
theorem lastResponse_bsMessage_width_one_of_even {s : State} (hwidth : s.width = 1) (heven : s.poly.toNat % 2 = 0)
    (bytes : List Nat) : lastResponse s (bsMessage bytes) = some ⟨.ok, toValue (s.xout.toNat % 2)⟩ := by
  have hconf : s.width ≠ 0 := by omega
  have hflush := flush_width_one_of_even (s := bsFeed s.bsStarted (messageBits s.ri bytes))
    ((bsFeed_width ..).trans hwidth) (by rw [bsFeed_poly]; exact heven)
  rw [lastResponse_bsMessage hconf, hflush, finalize_width_one hwidth Nat.two_pos, Nat.zero_xor]

/-- Settles O43. -/
theorem widthOneIsParity : Obligations.WidthOneIsParity :=
  ⟨fun _ b hwidth hodd hacc => ⟨bsStep_width_one hwidth hodd hacc b, flush_width_one_of_odd hwidth hodd hacc⟩,
    fun _ d hwidth hodd => lastResponse_bsMessage_width_one_of_odd hwidth hodd d,
    fun _ bytes hwidth heven => lastResponse_bsMessage_width_one_of_even hwidth heven bytes⟩

end Sys2Proof.Machine
end

section
/-! The table step in arithmetic, and the two engines on one message (44_tabledriven.md, sections 2 and 3, 43_bitserial.md,
section 3). -/

namespace Sys2Proof.Machine

/-! ## The table step in arithmetic -/

/-- The table's index is the top byte of the accumulator XOR the byte (44_tabledriven.md R191). -/
theorem tableStep_eq_mod (p w acc : Nat) {d : Nat} (hd : d < 2 ^ 8) :
    tableStep p w acc d = (acc * 2 ^ 8 ^^^ tableEntry p w (acc / 2 ^ (w - 8) % 2 ^ 8 ^^^ d)) % 2 ^ w := by
  have hindex : (acc >>> (w - 8) ^^^ d) &&& mask 8 = acc / 2 ^ (w - 8) % 2 ^ 8 ^^^ d := by
    rw [and_mask, Nat.xor_mod_two_pow, Nat.mod_eq_of_lt hd, Nat.shiftRight_eq_div_pow]
  rw [← hindex, ← Nat.shiftLeft_eq, ← and_mask]
  rfl

/-- Bits of the accumulator at or above W have no effect (44_tabledriven.md, section 2). -/
theorem tableStep_mod (p : Nat) {w d : Nat} (hw : 8 ≤ w) (acc : Nat) (hd : d < 2 ^ 8) :
    tableStep p w (acc % 2 ^ w) d = tableStep p w acc d := by
  have hpow : 2 ^ w = 2 ^ (w - 8) * 2 ^ 8 := by rw [← Nat.pow_add, Nat.sub_add_cancel hw]
  have hindex : acc % 2 ^ w / 2 ^ (w - 8) % 2 ^ 8 = acc / 2 ^ (w - 8) % 2 ^ 8 := by
    rw [hpow, Nat.mod_mul_right_div_self, Nat.mod_mod]
  rw [tableStep_eq_mod _ _ _ hd, tableStep_eq_mod _ _ _ hd, hindex, Nat.xor_mod_two_pow, Nat.xor_mod_two_pow (a := acc * _),
    Nat.mod_mul_mod]

/-- At W = 8 the whole accumulator is the index (44_tabledriven.md, section 2). -/
theorem tableStep_width_eight (p : Nat) {acc d : Nat} (hacc : acc < 2 ^ 8) (hd : d < 2 ^ 8) :
    tableStep p 8 acc d = tableEntry p 8 (acc ^^^ d) := by
  rw [tableStep_eq_mod _ _ _ hd, Nat.sub_self, Nat.pow_zero, Nat.div_one, Nat.mod_eq_of_lt hacc, Nat.xor_mod_two_pow,
    Nat.mul_mod_left, Nat.zero_xor, Nat.mod_eq_of_lt (tableEntriesFitTheWidth _ _ _)]

/-- Settles O46. -/
theorem tableStepShiftsAByteThroughTheTable : Obligations.TableStepShiftsAByteThroughTheTable := by
  rintro s d a hw hd rfl
  rw [tdStep_eq_withTdAcc, ← maskedPoly_eq_mod]
  refine ⟨?_, ?_, fun hwidth hacc => ?_⟩
  · rw [tableStep_eq_mod _ _ _ hd]
    rfl
  · rw [← tableStep_mod _ hw _ hd]
    have hread : (s.withTdAcc (s.tdAcc.toNat % 2 ^ s.width)).tdAcc.toNat = s.tdAcc.toNat % 2 ^ s.width :=
      withTdAcc_tdAcc_toNat (Nat.mod_lt _ (Nat.two_pow_pos _))
    exact congrArg (fun acc => toValue (tableStep s.maskedPoly s.width acc d)) hread.symm
  · rw [maskedPoly_eq_mod, hwidth, tableStep_width_eight _ hacc hd]
    rfl

/-! ## A resumed message -/

theorem tableFeed_append (p w : Nat) (reflectIn : Bool) (acc : Nat) (first rest : List Nat) :
    tableFeed p w reflectIn acc (first ++ rest) = tableFeed p w reflectIn (tableFeed p w reflectIn acc first) rest :=
  List.foldl_append

/-- What follows the bytes already taken in answers the output transform of the accumulator fed with the rest
(44_tabledriven.md R192, R193). -/
theorem lastResponse_tdRest {s : State} (hlo : 8 ≤ s.width) (hdvd : s.width % 8 = 0) {acc : Nat} (hacc : acc < 2 ^ s.width)
    (rest : List Nat) :
    lastResponse (s.withTdAcc acc).settled (rest.map (commandOf .tdByte) ++ [commandOf .tdFinal 0]) =
      some ⟨.ok, toValue (finalize (tableFeed s.maskedPoly s.width s.ri acc rest) s)⟩ :=
  lastResponse_append (transactAll_tdBytes hlo hdvd hacc rest)
    (lastResponse_singleton (transact_tdFinal_withTdAcc hlo hdvd (tableFeed_lt s.maskedPoly s.ri hacc rest)))

/-- A message that starts from an accumulator written to XIN (44_tabledriven.md R195). -/
theorem lastResponse_setxin_tdMessage {s : State} (hlo : 8 ≤ s.width) (hdvd : s.width % 8 = 0) (hfits : s.width ≤ s.wmax)
    {acc : Nat} (hacc : acc < 2 ^ s.width) (rest : List Nat) :
    lastResponse s (commandOf .setxin acc :: tdMessage rest) =
      some ⟨.ok, toValue (finalize (tableFeed s.maskedPoly s.width s.ri acc rest) s)⟩ := by
  have hmask : acc &&& mask s.wmax = acc := and_mask_of_lt (hacc.trans_le (Nat.pow_le_pow_right Nat.two_pos hfits))
  have hset := transact_setxin s acc
  rw [hmask] at hset
  have hxin : ({ s.settled with xin := toValue acc } : State).maskedXin = acc := by
    have hvalue : (toValue acc).toNat = acc := toValue_toNat_of_lt (Nat.lt_succ_iff.mp (width_lt s)) hacc
    exact (congrArg (· &&& mask s.width) hvalue).trans (and_mask_of_lt hacc)
  have hmessage := lastResponse_tdMessage (s := { s.settled with xin := toValue acc }) hlo hdvd rest
  rw [hxin] at hmessage
  exact lastResponse_append (transactAll_singleton hset) hmessage

/-- Settles O48: going on, resuming, and the whole message all feed the rest into the accumulator the first bytes left. -/
theorem resumedTableMessageGivesTheSameCrc : Obligations.ResumedTableMessageGivesTheSameCrc := by
  intro s first rest hlo hdvd hfits
  have hacc := tableFeed_lt s.maskedPoly s.ri (maskedXin_lt s) first
  have hvalue := withTdAcc_tdAcc_toNat hacc
  have hfirst := transactAll_cons (transact_tdInit hlo hdvd) (transactAll_tdBytes hlo hdvd (maskedXin_lt s) first)
  refine ⟨_, _, hfirst, _, lastResponse_tdRest hlo hdvd hacc rest, rfl, ?_, ?_⟩
  · rw [show (s.withTdAcc _).settled.tdAcc.toNat = _ from hvalue]
    exact lastResponse_setxin_tdMessage (s := (s.withTdAcc _).settled) hlo hdvd hfits hacc rest
  · rw [lastResponse_tdMessage hlo hdvd, tableFeed_append]

/-! ## Both engines on one message -/

/-- Without a bit leaving at the top, n advances double n times (42_table.md R142). -/
theorem iterate_tableAdvance_of_lt (p : Nat) {w n c : Nat} (hw : 1 ≤ w) (h : c * 2 ^ n < 2 ^ w) :
    (tableAdvance p w)^[n] c = c * 2 ^ n := by
  induction n with
  | zero => exact (Nat.mul_one c).symm
  | succ n ih =>
    have hdouble : 2 * (c * 2 ^ n) + bit false = c * 2 ^ (n + 1) := by rw [Nat.pow_succ, bit_false]; ring
    have hprev : c * 2 ^ n < 2 ^ w := by omega
    rw [Function.iterate_succ_apply', ih hprev, tableAdvance_eq_shiftIn p w _ hw, shiftIn_of_lt p (hdouble ▸ h), hdouble]

theorem iterate_tableAdvance_zero (p w n : Nat) : (tableAdvance p w)^[n] 0 = 0 :=
  Function.iterate_fixed (tableAdvance_zero p w) n

/-- What the accumulator held only advances while bits come in (42_table.md R142). -/
theorem foldl_shiftIn_xor (p : Nat) {w : Nat} (hw : 1 ≤ w) (a b : Nat) (bits : List Bool) :
    bits.foldl (shiftIn p w) (a ^^^ b) = (tableAdvance p w)^[bits.length] a ^^^ bits.foldl (shiftIn p w) b := by
  induction bits using List.reverseRecOn with
  | nil => rfl
  | append_singleton bits c ih =>
    have hstep := shiftIn_xor p w ((tableAdvance p w)^[bits.length] a) (bits.foldl (shiftIn p w) b) false c hw
    rw [Bool.false_xor, ← tableAdvance_eq_shiftIn p w _ hw, ← Function.iterate_succ_apply' (tableAdvance p w)] at hstep
    rw [List.foldl_append, List.foldl_append, List.length_append, ih]
    exact hstep

theorem flush_eq_iterate {s : State} (hw : 1 ≤ s.width) :
    flush s = (tableAdvance s.maskedPoly s.width)^[s.width] s.bsAcc.toNat := by
  have hshift : tableAdvance s.maskedPoly s.width = fun r => shiftIn s.maskedPoly s.width r false :=
    funext fun r => tableAdvance_eq_shiftIn _ _ r hw
  rw [flush, hshift]

theorem byteBits_length (d : Nat) : (byteBits d).length = 8 := rfl

/-- The low n bits of a number, from the top, are its value modulo 2^n. -/
theorem bitsValue_lowBits (d n : Nat) : bitsValue ((List.range n).reverse.map d.testBit) = d % 2 ^ n := by
  induction n generalizing d with
  | zero => exact (Nat.mod_one d).symm
  | succ n ih =>
    have hshift : d.testBit ∘ Nat.succ = (d / 2).testBit := funext fun k => Nat.testBit_succ d k
    have hbit : bit (d.testBit 0) = d % 2 := by
      obtain h | h := Nat.mod_two_eq_zero_or_one d <;> rw [Nat.testBit_zero, h] <;> rfl
    rw [List.range_succ_eq_map, List.reverse_cons, List.map_append, ← List.map_reverse, List.map_map, hshift, List.map_cons,
      List.map_nil, bitsValue_concat, ih, hbit, Nat.pow_succ', Nat.mod_mul, Nat.add_comm]

theorem bitsValue_byteBits (d : Nat) : bitsValue (byteBits d) = d % 2 ^ 8 := bitsValue_lowBits d 8

/-- The part above bit n and the part below lie in different bits. -/
theorem mul_two_pow_add_eq_xor {n r : Nat} (h : r < 2 ^ n) (q : Nat) : q * 2 ^ n + r = q * 2 ^ n ^^^ r := by
  have hdiv : (q * 2 ^ n ^^^ r) / 2 ^ n = q := by
    rw [Nat.xor_div_two_pow, Nat.mul_div_cancel _ (Nat.two_pow_pos n), Nat.div_eq_of_lt h, Nat.xor_zero]
  have hmod : (q * 2 ^ n ^^^ r) % 2 ^ n = r := by
    rw [Nat.xor_mod_two_pow, Nat.mul_mod_left, Nat.mod_eq_of_lt h, Nat.zero_xor]
  rw [← Nat.div_add_mod (q * 2 ^ n ^^^ r) (2 ^ n), hdiv, hmod, Nat.mul_comm]

/-- A table step advances the accumulator by eight places and adds the byte's own augmentation: the table supplies both for
the top byte, and what lies below it only moves up (44_tabledriven.md, section 3). -/
theorem tableStep_eq_iterate (p : Nat) {w acc d : Nat} (hw : 8 ≤ w) (hacc : acc < 2 ^ w) (hd : d < 2 ^ 8) :
    tableStep p w acc d = (tableAdvance p w)^[8] acc ^^^ (tableAdvance p w)^[w] d := by
  have hpow : 2 ^ w = 2 ^ (w - 8) * 2 ^ 8 := by rw [← Nat.pow_add, Nat.sub_add_cancel hw]
  have hlo : acc % 2 ^ (w - 8) < 2 ^ (w - 8) := Nat.mod_lt _ (Nat.two_pow_pos _)
  have hhi : acc / 2 ^ (w - 8) < 2 ^ 8 := Nat.div_lt_of_lt_mul (hpow ▸ hacc)
  have hsplit : acc = acc / 2 ^ (w - 8) * 2 ^ (w - 8) ^^^ acc % 2 ^ (w - 8) := by
    rw [← mul_two_pow_add_eq_xor hlo, Nat.div_add_mod']
  have hlow : (tableAdvance p w)^[8] (acc % 2 ^ (w - 8)) = acc * 2 ^ 8 % 2 ^ w := by
    rw [iterate_tableAdvance_of_lt p (by omega) (by rw [hpow]; exact Nat.mul_lt_mul_of_pos_right hlo (by decide)),
      hpow, Nat.mul_mod_mul_right]
  have hbyte : (tableAdvance p w)^[w] d = tableEntry p w d := by
    have hfits : d * 2 ^ (w - 8) < 2 ^ w := by
      rw [hpow, Nat.mul_comm]; exact Nat.mul_lt_mul_of_pos_left hd (Nat.two_pow_pos _)
    rw [tableEntry_eq_iterate p hw hd, ← iterate_tableAdvance_of_lt p (by omega) hfits, ← Function.iterate_add_apply,
      Nat.add_sub_cancel' hw]
  calc tableStep p w acc d
    _ = acc * 2 ^ 8 % 2 ^ w ^^^ tableEntry p w (acc / 2 ^ (w - 8) ^^^ d) := by
      rw [tableStep_eq_mod _ _ _ hd, Nat.mod_eq_of_lt hhi, Nat.xor_mod_two_pow,
        Nat.mod_eq_of_lt (tableEntriesFitTheWidth _ _ _)]
    _ = (tableEntry p w (acc / 2 ^ (w - 8)) ^^^ acc * 2 ^ 8 % 2 ^ w) ^^^ tableEntry p w d := by
      rw [tableEntry_xorLinearBelow p w le_rfl _ _ hhi hd, ← Nat.xor_assoc, Nat.xor_comm (acc * _ % _)]
    _ = (tableAdvance p w)^[8] acc ^^^ (tableAdvance p w)^[w] d := by
      conv_rhs => rw [hsplit]
      rw [iterate_tableAdvance_xor (by omega), ← tableEntry_eq_iterate p hw hhi, hlow, hbyte]

theorem messageBits_append (reflectIn : Bool) (bytes : List Nat) (d : Nat) :
    messageBits reflectIn (bytes ++ [d]) = messageBits reflectIn bytes ++ byteBits (messageByte reflectIn d) := by
  simp [messageBits, messageByte]

theorem messageBits_length (reflectIn : Bool) (bytes : List Nat) :
    (messageBits reflectIn bytes).length = 8 * bytes.length := by
  induction bytes using List.reverseRecOn with
  | nil => rfl
  | append_singleton bytes d ih => rw [messageBits_append, List.length_append, ih, List.length_append]; rfl

/-- A byte's eight bits move the accumulator up eight places and enter unreduced below it (43_bitserial.md R164, R167). -/
theorem foldl_shiftIn_byteBits (p : Nat) {w : Nat} (hw : 8 ≤ w) (acc d : Nat) :
    (byteBits d).foldl (shiftIn p w) acc = (tableAdvance p w)^[8] acc ^^^ d % 2 ^ 8 := by
  have hxor := foldl_shiftIn_xor p (by omega : 1 ≤ w) acc 0 (byteBits d)
  rwa [Nat.xor_zero, byteBits_length, foldl_shiftIn_eq_bitsValue p (bits := byteBits d) hw, bitsValue_byteBits] at hxor

theorem tableFeed_concat (p : Nat) {w acc : Nat} (hw : 8 ≤ w) (hacc : acc < 2 ^ w) (reflectIn : Bool) (bytes : List Nat)
    (d : Nat) :
    tableFeed p w reflectIn acc (bytes ++ [d]) =
      (tableAdvance p w)^[8] (tableFeed p w reflectIn acc bytes) ^^^
        (tableAdvance p w)^[w] (messageByte reflectIn d % 2 ^ 8) := by
  have hbyte : messageByte reflectIn d % 2 ^ 8 < 2 ^ 8 := Nat.mod_lt _ (by decide)
  rw [← tableStep_eq_iterate p hw (tableFeed_lt p reflectIn hacc bytes) hbyte, ← and_mask, tableStep_and_mask]
  exact tableFeed_append ..

/-- The table engine holds the augmentation of the message, beside what its seed has become (44_tabledriven.md, section 3,
90_conflicts.md C5). -/
theorem tableFeed_eq_iterate (p : Nat) {w acc : Nat} (hw : 8 ≤ w) (hacc : acc < 2 ^ w) (reflectIn : Bool)
    (bytes : List Nat) :
    tableFeed p w reflectIn acc bytes =
      (tableAdvance p w)^[8 * bytes.length] acc ^^^
        (tableAdvance p w)^[w] ((messageBits reflectIn bytes).foldl (shiftIn p w) 0) := by
  have hpos : 1 ≤ w := by omega
  induction bytes using List.reverseRecOn with
  | nil => rw [messageBits, List.flatMap_nil, List.foldl_nil, iterate_tableAdvance_zero, Nat.xor_zero]; rfl
  | append_singleton bytes d ih =>
    have hseed : (tableAdvance p w)^[8 * (bytes ++ [d]).length] acc =
        (tableAdvance p w)^[8] ((tableAdvance p w)^[8 * bytes.length] acc) := by
      rw [← Function.iterate_add_apply, List.length_append, List.length_singleton, Nat.mul_add, Nat.add_comm]
    rw [tableFeed_concat p hw hacc, messageBits_append, List.foldl_append, foldl_shiftIn_byteBits p hw, ih, hseed,
      iterate_tableAdvance_xor hpos, iterate_tableAdvance_xor hpos, Nat.xor_assoc, ← Function.iterate_add_apply _ w,
      Nat.add_comm w, Function.iterate_add_apply _ _ w]

/-- A sequence between settled blocks runs on any block with those registers (00_scope.md R14). -/
theorem transactAll_of_settled {s u : State} {cs : List Command} {rs : List Response}
    (h : transactAll s.settled cs = some (u.settled, rs)) :
    ∃ t, transactAll s cs = some (t, rs) ∧ t.settled = u.settled := by
  cases cs with
  | nil =>
    obtain ⟨hu, rfl⟩ := Prod.mk.inj (Option.some.inj h)
    exact ⟨s, rfl, hu⟩
  | cons c cs => exact ⟨u.settled, h, rfl⟩

/-- Where the accumulator holds the bits alone its augmentation is W advances (43_bitserial.md R162). -/
theorem flush_bsFeed_eq_iterate {s : State} (hpos : 1 ≤ s.width) {bits : List Bool}
    (hacc : (bsFeed s bits).bsAcc.toNat = bits.foldl (shiftIn s.maskedPoly s.width) 0) :
    flush (bsFeed s bits) =
      (tableAdvance s.maskedPoly s.width)^[s.width] (bits.foldl (shiftIn s.maskedPoly s.width) 0) := by
  rw [flush_eq_iterate (by rwa [bsFeed_width]), bsFeed_width, bsFeed_maskedPoly, hacc]

theorem flush_settled (s : State) : flush s.settled = flush s := rfl

/-- Settles O49. -/
theorem tableAccumulatorIsTheAugmentedBitSerialOne : Obligations.TableAccumulatorIsTheAugmentedBitSerialOne := by
  intro s bytes hlo hdvd hxin hempty _ htd
  have hconf : s.width ≠ 0 := by omega
  have hzero : s.withTdAcc 0 = s := by
    have hvalue : toValue 0 = s.tdAcc := htd.symm
    rw [State.withTdAcc, hvalue]
  have htable := transactAll_tdBytes hlo hdvd (Nat.two_pow_pos s.width) bytes
  rw [hzero] at htable
  obtain ⟨t, hbits, ht⟩ := transactAll_of_settled (transactAll_bsBytes hconf bytes)
  obtain ⟨u, hbytes, hu⟩ := transactAll_of_settled htable
  have htdAcc : u.tdAcc.toNat = tableFeed s.maskedPoly s.width s.ri 0 bytes :=
    (congrArg (·.tdAcc.toNat) hu).trans (withTdAcc_tdAcc_toNat (tableFeed_lt _ _ (Nat.two_pow_pos _) bytes))
  have hflush : flush t = flush (bsFeed s (messageBits s.ri bytes)) := by
    rw [← flush_settled, ht, flush_settled]
  refine ⟨t, _, u, _, hbits, hbytes, ?_⟩
  have hacc := bsFeed_bsAcc_of_maskedXin_zero hxin (messageBits s.ri bytes)
  rw [show s.bsAcc.toNat = 0 from congrArg BitVec.toNat hempty] at hacc
  rw [htdAcc, hflush, flush_bsFeed_eq_iterate (by omega) hacc, tableFeed_eq_iterate _ hlo (Nat.two_pow_pos _),
    iterate_tableAdvance_zero, Nat.zero_xor]

/-! ## Where the engines agree -/

/-- A message of at least W bits advances the XOR-in as the table engine's seed is advanced (43_bitserial.md R161, R171). -/
theorem foldl_shiftIn_xorIn (p : Nat) {w : Nat} (hw : 1 ≤ w) (xorIn : Nat) {bits : List Bool} (h : w ≤ bits.length) :
    (tableAdvance p w)^[w]
        ((bits.drop w).foldl (shiftIn p w) ((bits.take w).foldl (shiftIn p w) 0 ^^^ xorIn)) =
      (tableAdvance p w)^[bits.length] xorIn ^^^ (tableAdvance p w)^[w] (bits.foldl (shiftIn p w) 0) := by
  rw [Nat.xor_comm, foldl_shiftIn_xor p hw, ← List.foldl_append, List.take_append_drop, iterate_tableAdvance_xor hw,
    ← Function.iterate_add_apply, List.length_drop, Nat.add_sub_cancel' h]

theorem flush_bsFeed_eq_tableFeed {s : State} (hlo : 8 ≤ s.width) (hfits : s.width ≤ s.wmax) {bytes : List Nat}
    (h : s.width ≤ 8 * bytes.length ∨ s.maskedXin = 0) :
    flush (bsFeed s.bsStarted (messageBits s.ri bytes)) = tableFeed s.maskedPoly s.width s.ri s.maskedXin bytes := by
  have hpos : 1 ≤ s.width := by omega
  have hlength := messageBits_length s.ri bytes
  rw [tableFeed_eq_iterate _ hlo (maskedXin_lt s)]
  obtain hlong | hxin := h
  · have hacc := bsFeed_bsAcc_of_start (s := s.bsStarted) (bits := messageBits s.ri bytes) hfits rfl hpos
    rw [← hlength] at hlong ⊢
    rw [if_pos (show s.bsStarted.width ≤ _ from hlong)] at hacc
    rw [flush_eq_iterate (by rw [bsFeed_width]; exact hpos), bsFeed_width, bsFeed_maskedPoly, hacc]
    exact foldl_shiftIn_xorIn _ hpos _ hlong
  · rw [hxin, iterate_tableAdvance_zero, Nat.zero_xor]
    exact flush_bsFeed_eq_iterate (s := s.bsStarted) hpos (bsFeed_bsAcc_of_maskedXin_zero (s := s.bsStarted) hxin _)

/-- A block at CRC-16 with the polynomial 0x1021 and XIN = 0xFFFF, for which the byte 0x31 is too short a message. -/
def crc16Block : State := { State.reset with w := 16, poly := 0x1021, xin := 0xFFFF }

/-- The bit-serial engine takes in the byte without the XOR-in. -/
theorem flush_crc16Block : flush (bsFeed crc16Block.bsStarted (messageBits crc16Block.ri [0x31])) = 0x2672 := by
  have hacc := bsFeed_bsAcc_of_no_xorIn (s := crc16Block.bsStarted) (bits := messageBits crc16Block.ri [0x31]) (by decide)
    (by decide)
  rw [flush_bsFeed_eq_iterate (by decide) hacc]
  decide

theorem tableFeed_crc16Block :
    tableFeed crc16Block.maskedPoly crc16Block.width crc16Block.ri crc16Block.maskedXin [0x31] = 0xC782 := by decide

/-- In a message of 8 bits the XOR-in of width 16 enters the table engine only (90_conflicts.md C2). -/
theorem engines_differ_on_short_message :
    ∃ v v', lastResponse crc16Block (bsMessage [0x31]) = some ⟨.ok, v⟩ ∧
      lastResponse crc16Block (tdMessage [0x31]) = some ⟨.ok, v'⟩ ∧ v ≠ v' := by
  have hbs := lastResponse_bsMessage (s := crc16Block) (by decide) [0x31]
  have htd := lastResponse_tdMessage (s := crc16Block) (by decide) (by decide) [0x31]
  rw [flush_crc16Block, finalize_of_no_transform rfl (by decide)] at hbs
  rw [tableFeed_crc16Block, finalize_of_no_transform rfl (by decide)] at htd
  exact ⟨_, _, hbs, htd, by decide⟩

/-- Settles O50. -/
theorem enginesAgreeOnMessagesOfAtLeastWidthBits : Obligations.EnginesAgreeOnMessagesOfAtLeastWidthBits := by
  refine ⟨fun s bytes hlo hdvd hfits _ h => ⟨_, ?_, lastResponse_tdMessage hlo hdvd bytes⟩, crc16Block, [0x31], by decide,
    by decide, by decide, by decide, by decide, by decide, engines_differ_on_short_message⟩
  rw [lastResponse_bsMessage (by omega), flush_bsFeed_eq_tableFeed hlo hfits h]

end Sys2Proof.Machine
end
